-- ==== Sys2Proof/Word.lean ====
section
/-! DEFINITION. The two unsigned value types of the CORE: the byte and the 32-bit word (00_scope.md R7). -/

namespace Sys2Proof

/-- An unsigned 8-bit value, 0 to 255 (R7). -/
abbrev Byte := BitVec 8

/-- An unsigned 32-bit value, built from 4 bytes with big-endian packing (R7). -/
abbrev Word := BitVec 32

end Sys2Proof
end

