-- ==== Sys2Proof/Config.lean ====
section
/-! DEFINITION. What is fixed for the hardware (00_scope.md R5, R6), the choices the spec leaves to a run, and the
free values: opaque constants that no proof can evaluate. -/

namespace Sys2Proof.Config

/-- `BLOCK_BYTES` (R5): bytes in a block. -/
abbrev blockBytes : Nat := 16

/-- `CK_BYTES` (R5): bytes of a cooked key, whatever the key size. -/
abbrev ckBytes : Nat := 241

/-- `CK_NR_OFFSET` (R5): the offset of the round-count byte in a cooked key. -/
abbrev ckNrOffset : Nat := 240

/-- `MAXNR` (R5): the largest round count. -/
abbrev maxNr : Nat := 14

/-- The capacity of the round-key register file, `4 * (MAXNR + 1)` words (10_state.md R24). -/
abbrev rkWords : Nat := 60

/-- `HW` and `OFFW` (R6): a handle, an offset and a length are unsigned values below `2 ^ 32`. -/
abbrev operandBound : Nat := 2 ^ 32

/-- What a byte of a buffer reads as when the buffer's list of cells does not list its offset. It is the
representation's default, and the contents of every buffer at `State.reset`: DESIGN CHOICE, unsafe (log 2). -/
abbrev unlisted : Byte := 0

/-- The buffers of the reset state, by capacity. `NBUF` and `cap(b)` are open parameters of a run (R6), held in the
state; this is one run's choice: DESIGN CHOICE, unsafe (log 2). -/
def resetCaps : List Nat := List.replicate 8 4096

/-- FREE VALUE (log 4): the contents of 32-bit scratch register number `slot` at draw number `draw`. -/
opaque freeWord (draw slot : Nat) : Word

/-- FREE VALUE (log 4): the contents of 8-bit scratch register number `slot` at draw number `draw`. -/
opaque freeByte (draw slot : Nat) : Byte

/-- FREE VALUE (log 4): the contents of a 4-bit scratch counter, number `slot`, at draw number `draw`. -/
opaque freeNibble (draw slot : Nat) : BitVec 4

/-- FREE VALUE (log 4): the contents of the 6-bit scratch counter `I` at draw number `draw`. -/
opaque freeIndex (draw : Nat) : BitVec 6

end Sys2Proof.Config
end

