-- ==== Sys2Proof/Syntax.lean ====
section
/-! DEFINITION. The command set: one constructor for each row of opcode_table.json (30_encoding.md R86), its operands
in packet order (R82 to R84). -/

namespace Sys2Proof

/-- The seven commands. An operand is an unsigned integer (R85): a buffer handle (`kb`, `cb`, `sb`, `db`), an offset
(`koff`, `coff`, `soff`, `doff`) or a length (`klen`). That each fits its 32-bit operand word is `Instr.wellFormed`. -/
inductive Instr where
  /-- `TINIT` (R124): run the Table Generator. -/
  | tinit
  /-- `CKE` (R158): cook an encryption key, validating. -/
  | cke (kb koff klen cb coff : Nat)
  /-- `CKD` (R159): cook a decryption key, validating. -/
  | ckd (kb koff klen cb coff : Nat)
  /-- `CKE.Z` (R160): cook an encryption key, zero-fill on an illegal key. -/
  | ckeZ (kb koff klen cb coff : Nat)
  /-- `CKD.Z` (R161): cook a decryption key, zero-fill on an illegal key. -/
  | ckdZ (kb koff klen cb coff : Nat)
  /-- `ENC` (R189): encrypt one block. -/
  | enc (cb coff sb soff db doff : Nat)
  /-- `DEC` (R218): decrypt one block. -/
  | dec (cb coff sb soff db doff : Nat)
  deriving DecidableEq, Repr

/-- The operands of a command, in packet order (R83, R84). -/
def Instr.operands : Instr → List Nat
  | .tinit => []
  | .cke kb koff klen cb coff => [kb, koff, klen, cb, coff]
  | .ckd kb koff klen cb coff => [kb, koff, klen, cb, coff]
  | .ckeZ kb koff klen cb coff => [kb, koff, klen, cb, coff]
  | .ckdZ kb koff klen cb coff => [kb, koff, klen, cb, coff]
  | .enc cb coff sb soff db doff => [cb, coff, sb, soff, db, doff]
  | .dec cb coff sb soff db doff => [cb, coff, sb, soff, db, doff]

end Sys2Proof
end

