-- ==== Sys2Proof/WellFormed.lean ====
section
/-! DEFINITION. When a command can be encoded: each operand fits one 32-bit operand word (30_encoding.md R85). -/

namespace Sys2Proof

/-- The one check a command's syntax must pass: every operand is an unsigned 32-bit integer (R85; `HW = OFFW = 32`,
00_scope.md R6). Whether a handle names a buffer, or a slice fits, is decided when the command runs (R91, R51). -/
def Instr.wellFormed (i : Instr) : Bool :=
  i.operands.all fun v => decide (v < Config.operandBound)

end Sys2Proof
end

