-- ==== Sys2Proof/Decode.lean ====
section
/-! DEFINITION. Command packets (30_encoding.md): the opcode table, packet length, the decoder (total on any words,
rejecting by name) and the encoder. The encoding is the spec's own decision (92_eei_decisions.md D3, D4). -/

namespace Sys2Proof

/-- The seven opcodes of R86. -/
inductive Opcode where
  | tinit | cke | ckd | ckeZ | ckdZ | enc | dec
  deriving DecidableEq, Repr

/-- The three packet formats: Z (R82), K (R83), B (R84). -/
inductive Format where
  | z | k | b
  deriving DecidableEq, Repr

/-- Words in a packet of a format (R82 to R84, R88). -/
def Format.words : Format → Nat
  | .z => 1
  | .k => 6
  | .b => 7

/-- One row of the opcode map (R86): `W0` is the row's command word when `W0 & mask = pattern`. -/
structure OpcodeRow where
  op : Opcode
  mnemonic : String
  format : Format
  pattern : Word
  mask : Word
  deriving DecidableEq, Repr

/-- The opcode map of R86, as opcode_table.json prints it. -/
def opcodeTable : List OpcodeRow := [
  ⟨.tinit, "TINIT", .z, 0x00000001, 0xFFFFFFFF⟩,
  ⟨.cke,   "CKE",   .k, 0x00000010, 0xFFFFFFFF⟩,
  ⟨.ckd,   "CKD",   .k, 0x00000011, 0xFFFFFFFF⟩,
  ⟨.ckeZ,  "CKE.Z", .k, 0x00000018, 0xFFFFFFFF⟩,
  ⟨.ckdZ,  "CKD.Z", .k, 0x00000019, 0xFFFFFFFF⟩,
  ⟨.enc,   "ENC",   .b, 0x00000020, 0xFFFFFFFF⟩,
  ⟨.dec,   "DEC",   .b, 0x00000021, 0xFFFFFFFF⟩]

/-- The row a command word matches, if any. -/
def lookupW0 (w0 : Word) : Option OpcodeRow :=
  opcodeTable.find? fun r => w0 &&& r.mask == r.pattern

/-- `len(W0)` (R88): decided by `W0` alone; an illegal `W0` is a packet of one word (R87). -/
def packetLen (w0 : Word) : Nat :=
  match lookupW0 w0 with
  | some r => r.format.words
  | none => 1

/-- Why a list of words is not a command. -/
inductive Reject where
  /-- `W0` matches no row of R86 (R87): the CORE answers `IllegalCommand`. -/
  | illegalCommand
  /-- Fewer than `len(W0)` words: the packet is not complete yet (R88). -/
  | incomplete
  deriving DecidableEq, Repr

/-- The operands of a format K packet, in order `KB KOFF KLEN CB COFF` (R83). -/
def decodeK (mk : Nat → Nat → Nat → Nat → Nat → Instr) : List Word → Except Reject (Instr × List Word)
  | kb :: koff :: klen :: cb :: coff :: rest =>
    .ok (mk kb.toNat koff.toNat klen.toNat cb.toNat coff.toNat, rest)
  | _ => .error .incomplete

/-- The operands of a format B packet, in order `CB COFF SB SOFF DB DOFF` (R84). -/
def decodeB (mk : Nat → Nat → Nat → Nat → Nat → Nat → Instr) : List Word → Except Reject (Instr × List Word)
  | cb :: coff :: sb :: soff :: db :: doff :: rest =>
    .ok (mk cb.toNat coff.toNat sb.toNat soff.toNat db.toNat doff.toNat, rest)
  | _ => .error .incomplete

/-- The command at the head of a stream of words, and the words after it. Total on any words. -/
def decode : List Word → Except Reject (Instr × List Word)
  | [] => .error .incomplete
  | w0 :: ws =>
    match (lookupW0 w0).map OpcodeRow.op with
    | none => .error .illegalCommand
    | some .tinit => .ok (.tinit, ws)
    | some .cke => decodeK .cke ws
    | some .ckd => decodeK .ckd ws
    | some .ckeZ => decodeK .ckeZ ws
    | some .ckdZ => decodeK .ckdZ ws
    | some .enc => decodeB .enc ws
    | some .dec => decodeB .dec ws

/-- The command word `W0` of a command (R81, R86): `OPC` in bits 7:0, `RSV` (bits 31:8) zero. -/
def Instr.commandWord : Instr → Word
  | .tinit => 0x00000001
  | .cke .. => 0x00000010
  | .ckd .. => 0x00000011
  | .ckeZ .. => 0x00000018
  | .ckdZ .. => 0x00000019
  | .enc .. => 0x00000020
  | .dec .. => 0x00000021

/-- The packet of a well-formed command: `W0`, then one word an operand (R80 to R85). -/
def encode (i : Instr) : List Word :=
  i.commandWord :: i.operands.map (BitVec.ofNat 32)

/-- A number whose bit 0 is bit 0 of `W0` and whose bits 32k .. 32k+31 are word `Wk`, as the seven words of the longest
packet; the bits at and above `nbits` are zero. -/
def tableWords (nbits w : Nat) : List Word :=
  (List.range 7).map fun k => BitVec.ofNat 32 ((w % 2 ^ nbits) >>> (32 * k))

/-- The command the decoder reads from an instruction whose bits are `w`, numbered as opcode_table.json numbers them
(the operand words the table gives no bits are zero). -/
def decodeTableWord (nbits w : Nat) : Option Instr :=
  match decode (tableWords nbits w) with
  | .ok (i, _) => some i
  | .error _ => none

end Sys2Proof
end

