-- ==== Sys2Proof/Machine/State.lean ====
section
/-! DEFINITION. The state of the machine as plain data (10_state.md): the buffers, RESULT, TABLES_READY, the scratch
registers, the command packet registers and the HOST's pending actions; the machine's stops; the state after reset. -/

namespace Sys2Proof.Machine

/-- One buffer (20_memory.md R50): `cap` bytes at offsets `0 .. cap - 1`. `cells` lists the offsets whose byte is not
`Config.unlisted`, strictly rising, so that equal contents are equal data (`Buffer.wf`). -/
structure Buffer where
  cap : Nat
  cells : List Host.Cell
  deriving DecidableEq, Repr

/-- The memory (R50): buffer `b` is entry `b` of the list, and `NBUF` is its length. -/
abbrev Memory := List Buffer

/-- Four 32-bit registers, one for each column of the cipher state (00_scope.md R13): `S[0..3]` or `T[0..3]`. -/
structure Quad where
  w0 : Word
  w1 : Word
  w2 : Word
  w3 : Word
  deriving DecidableEq, Repr

/-- The scratch registers (10_state.md R22 to R28, R34, R35). They are unspecified at the start of a command and the
HOST cannot read them (R29). -/
structure Scratch where
  /-- State words `S[0..3]` (R22). -/
  s : Quad
  /-- Temporaries `T[0..3]` (R23). -/
  t : Quad
  /-- Round-key words `RK[0..59]` (R24). -/
  rk : Vector Word 60
  /-- Round-count register `NR` (R25). -/
  nr : BitVec 8
  /-- Key-length register `NK` (R26). -/
  nk : BitVec 4
  /-- Word temporary `TMP` (R27). -/
  tmp : Word
  /-- Cooked-key staging bytes `CKB[0..240]` (R28). -/
  ckb : Vector Byte 241
  /-- Round counter `RND` (R34). -/
  rnd : BitVec 4
  /-- Word index `I` (R35). -/
  i : BitVec 6
  deriving DecidableEq, Repr

/-- The command packet registers `CW[0..6]` (R31), write-only for the HOST. -/
structure Packet where
  w0 : Word
  w1 : Word
  w2 : Word
  w3 : Word
  w4 : Word
  w5 : Word
  w6 : Word
  deriving DecidableEq, Repr

/-- What the HOST does to the CORE (10_state.md R20, R31; 70_reset_and_hazards.md R270, R282). -/
inductive HostEvent where
  /-- Place the next word of the current command packet in `CW` (R31, R80). -/
  | word (w : Word)
  /-- Write one byte of a buffer, between commands (R282). -/
  | poke (b off : Nat) (v : Byte)
  /-- Reset the CORE, between commands (R270). -/
  | reset
  deriving DecidableEq, Repr

/-- The fault causes of 60_exceptions.md R240. A fault is a NEXT state (R244): these are the codes `RESULT` shows, not
stops of the machine. -/
inductive FaultCode where
  | invalidKeySize
  | invalidBlockLength
  | offsetOutOfRange
  | scheduleRoundCountMismatch
  | illegalCommand
  deriving DecidableEq, Repr

/-- The faults that stop the model. No command raises one: a command's faults are `FaultCode`s. -/
inductive Fault where
  /-- Raised by `hostPoke` only: the HOST writes a byte that exists in no buffer. The spec lets the HOST write "any byte
  of any buffer" (R282) and gives no other address (R50). Safe (log 5). -/
  | noSuchByte
  deriving DecidableEq, Repr

/-- The refusals of the model. -/
inductive Refusal where
  /-- An instruction without a meaning, raised by an arm of `exec` only; no arm of this model does. Safe. -/
  | notModelled (mnemonic : String)
  deriving DecidableEq, Repr

/-- The state of the machine (10_state.md R21), with the scratch registers, the packet registers, the HOST's pending
actions and the counter of free values. -/
structure State where
  /-- The contents of every buffer (R21 (a)), with `NBUF` and the capacities of the run. -/
  mem : Memory
  /-- `RESULT` (R30). -/
  result : BitVec 8
  /-- `TABLES_READY` (R32). -/
  tablesReady : Bool
  /-- The scratch registers (R22 to R28, R34, R35). -/
  scratch : Scratch
  /-- `CW[0..6]` (R31). -/
  cw : Packet
  /-- How many words of the current packet stand in `CW` (R31, R88). -/
  received : Nat
  /-- The HOST's actions still to come, the next one first (log 1). -/
  port : List HostEvent
  /-- The model's own field: how many free values have been drawn (log 4). -/
  draws : Nat
  deriving DecidableEq, Repr

/-- The scratch registers of the reset state. The spec leaves them unspecified (R37): DESIGN CHOICE, unsafe (log 3). -/
def Scratch.reset : Scratch where
  s := ⟨0, 0, 0, 0⟩
  t := ⟨0, 0, 0, 0⟩
  rk := Vector.replicate 60 0
  nr := 0
  nk := 0
  tmp := 0
  ckb := Vector.replicate 241 0
  rnd := 0
  i := 0

/-- The machine right after reset (R37): `RESULT = 0`, `TABLES_READY = 0`, idle, waiting for the first packet (R270).
The buffers (log 2), the scratch registers and `CW` (log 3) are the model's choice. -/
def State.reset : State where
  mem := Config.resetCaps.map fun c => ⟨c, []⟩
  result := 0
  tablesReady := false
  scratch := Scratch.reset
  cw := ⟨0, 0, 0, 0, 0, 0, 0⟩
  received := 0
  port := []
  draws := 0

end Sys2Proof.Machine
end

