-- ==== Sys2Proof/Machine/Flags.lean ====
section
/-! DEFINITION. The one flag of the CORE, `RESULT` (10_state.md R30), and its codes (60_exceptions.md R240). -/

namespace Sys2Proof.Machine

/-- The code of a fault, as `RESULT` shows it (R240). -/
def FaultCode.code : FaultCode → BitVec 8
  | .invalidKeySize => 1
  | .invalidBlockLength => 2
  | .offsetOutOfRange => 3
  | .scheduleRoundCountMismatch => 4
  | .illegalCommand => 5

/-- The code of a completed command (R30, R240). -/
def resultDone : BitVec 8 := 0

end Sys2Proof.Machine
end

