-- ==== Sys2Proof/Machine/Ops.lean ====
section
/-! DEFINITION. The named operations the meanings share: bytes of a word, the buffers (20_memory.md), the scratch
registers, the command packet registers, and how a command begins, faults and completes (60_exceptions.md R244). -/

namespace Sys2Proof.Machine

/-! ### Bytes and words (00_scope.md R9) -/

/-- `byte_k(w)` (R9): bits `31-8k : 24-8k` of `w`; `byte_0` is the most significant byte. -/
def byteK (k : Nat) (w : Word) : Byte := (w >>> (24 - 8 * k)).setWidth 8

/-- `word(b0, b1, b2, b3)` (R9): the word whose `byte_k` is `bk`. -/
def word (b0 b1 b2 b3 : Byte) : Word :=
  b0.setWidth 32 <<< 24 ||| b1.setWidth 32 <<< 16 ||| b2.setWidth 32 <<< 8 ||| b3.setWidth 32

/-- The four bytes of a word in increasing offset order: big-endian (R9, 20_memory.md R54). -/
def wordBytes (w : Word) : List Byte := [byteK 0 w, byteK 1 w, byteK 2 w, byteK 3 w]

/-- `be32(m, a)` (R9): the word at offset `a` of a byte sequence. -/
def be32 (m : List Byte) (a : Nat) : Word :=
  word (m.getD a 0) (m.getD (a + 1) 0) (m.getD (a + 2) 0) (m.getD (a + 3) 0)

/-! ### The buffers (20_memory.md) -/

/-- The canonical form of a buffer's cells: offsets strictly rising and below the capacity, and no cell that holds what
an unlisted offset reads as. -/
abbrev Buffer.wf (buf : Buffer) : Prop :=
  buf.cells.Pairwise (fun x y => x.1 < y.1) ∧ ∀ c ∈ buf.cells, c.1 < buf.cap ∧ c.2 ≠ Config.unlisted

/-- The canonical form of the memory: of each of its buffers. -/
abbrev Memory.wf (m : Memory) : Prop := ∀ buf ∈ m, buf.wf

/-- The byte a list of cells holds at an offset. -/
def cellAt : List Host.Cell → Nat → Byte
  | [], _ => Config.unlisted
  | c :: cs, a => if c.1 = a then c.2 else cellAt cs a

/-- The byte at (handle, offset), or `none` where no such byte exists (R50). -/
def Memory.byte? (m : Memory) (b a : Nat) : Option Byte :=
  match m[b]? with
  | none => none
  | some buf => if a < buf.cap then some (cellAt buf.cells a) else none

/-- `cap(b)` (R50). A handle that names no buffer has capacity 0 here; every command checks its handles first. -/
def Memory.cap (m : Memory) (b : Nat) : Nat :=
  match m[b]? with
  | none => 0
  | some buf => buf.cap

/-- `MemRead(b, a, n)` (R56), for an in-range slice: the bytes at offsets `a .. a+n-1`, in that order. -/
def memRead (m : Memory) (b a n : Nat) : List Byte :=
  (List.range n).map fun j => (m.byte? b (a + j)).getD Config.unlisted

/-- The cells that the bytes `vs` make from offset `a` on: one for each byte that has to be listed. -/
def listed : Nat → List Byte → List Host.Cell
  | _, [] => []
  | a, v :: vs => if v = Config.unlisted then listed (a + 1) vs else (a, v) :: listed (a + 1) vs

/-- The cells after the bytes `vs` are written from offset `a` on: those before the window, the window's, those after. -/
def overwrite (cells : List Host.Cell) (a : Nat) (vs : List Byte) : List Host.Cell :=
  cells.filter (fun c => decide (c.1 < a)) ++ listed a vs ++
    cells.filter (fun c => decide (a + vs.length ≤ c.1))

/-- `MemWrite(b, a, n, v)` (R57), for an in-range slice and `n` the length of `vs`. -/
def memWrite (m : Memory) (b a : Nat) (vs : List Byte) : Memory :=
  m.modify b fun buf => { buf with cells := overwrite buf.cells a vs }

/-! ### The scratch registers (10_state.md) -/

/-- The register of column `c mod 4` (00_scope.md R13). -/
def Quad.col (q : Quad) (c : Nat) : Word :=
  match c % 4 with
  | 0 => q.w0
  | 1 => q.w1
  | 2 => q.w2
  | _ => q.w3

/-- Column by column exclusive-or. -/
def Quad.xor (p q : Quad) : Quad := ⟨p.w0 ^^^ q.w0, p.w1 ^^^ q.w1, p.w2 ^^^ q.w2, p.w3 ^^^ q.w3⟩

/-- The four columns of a 16-byte block: column `c` is `be32(block, 4c)` (R13, 42_encrypt.md R188). -/
def Quad.ofBytes (m : List Byte) : Quad := ⟨be32 m 0, be32 m 4, be32 m 8, be32 m 12⟩

/-- The 16 bytes of the four columns: `out[4c + k] = byte_k(S[c])` (R188). -/
def Quad.bytes (q : Quad) : List Byte :=
  wordBytes q.w0 ++ wordBytes q.w1 ++ wordBytes q.w2 ++ wordBytes q.w3

/-- `RK[j]` (R24), for `j < 60`. -/
def Scratch.rkAt (r : Scratch) (j : Nat) : Word := r.rk[j]?.getD 0

/-- `RK[j] <- w` (R24), for `j < 60`. -/
def Scratch.setRk (r : Scratch) (j : Nat) (w : Word) : Scratch := { r with rk := r.rk.setIfInBounds j w }

/-- `I <- n` (R35). -/
def Scratch.setI (r : Scratch) (n : Nat) : Scratch := { r with i := BitVec.ofNat 6 n }

/-- `RND <- n` (R34). -/
def Scratch.setRnd (r : Scratch) (n : Nat) : Scratch := { r with rnd := BitVec.ofNat 4 n }

/-- Round-key group `g`: the words `RK[4g .. 4g+3]` (00_scope.md R14). -/
def Scratch.group (r : Scratch) (g : Nat) : Quad :=
  ⟨r.rkAt (4 * g), r.rkAt (4 * g + 1), r.rkAt (4 * g + 2), r.rkAt (4 * g + 3)⟩

/-- Unspecified scratch registers (R29; 93_implementation_defined.md U8): every register is a free value (log 4). -/
def Scratch.free (draw : Nat) : Scratch where
  s := ⟨Config.freeWord draw 0, Config.freeWord draw 1, Config.freeWord draw 2, Config.freeWord draw 3⟩
  t := ⟨Config.freeWord draw 4, Config.freeWord draw 5, Config.freeWord draw 6, Config.freeWord draw 7⟩
  rk := Vector.ofFn fun j : Fin 60 => Config.freeWord draw (9 + j.val)
  nr := Config.freeByte draw 241
  nk := Config.freeNibble draw 0
  tmp := Config.freeWord draw 8
  ckb := Vector.ofFn fun j : Fin 241 => Config.freeByte draw j.val
  rnd := Config.freeNibble draw 1
  i := Config.freeIndex draw

/-! ### The command packet registers (10_state.md R31) -/

/-- `CW[n] <- w`, for `n < 7`. -/
def Packet.put (p : Packet) (n : Nat) (w : Word) : Packet :=
  match n with
  | 0 => { p with w0 := w }
  | 1 => { p with w1 := w }
  | 2 => { p with w2 := w }
  | 3 => { p with w3 := w }
  | 4 => { p with w4 := w }
  | 5 => { p with w5 := w }
  | 6 => { p with w6 := w }
  | _ => p

/-- `CW[0 .. n-1]`: the words of the packet received so far. -/
def Packet.words (p : Packet) (n : Nat) : List Word :=
  [p.w0, p.w1, p.w2, p.w3, p.w4, p.w5, p.w6].take n

/-! ### How a command begins, faults and completes -/

/-- The lazy table initialisation that a command begins with (40_tables.md R124, R125), and the scratch registers
unspecified at its start (10_state.md R29; log 4, log 6). -/
def State.begin (s : State) : State :=
  { s with tablesReady := true, scratch := Scratch.free s.draws, draws := s.draws + 1 }

/-- The state after `raise F` (60_exceptions.md R244): `RESULT <- code(F)`, no buffer written, `TABLES_READY` kept, the
scratch registers left unspecified. Nothing is saved and nothing is vectored. -/
def State.faulted (f : FaultCode) (s : State) : State :=
  { s with result := f.code, scratch := Scratch.free s.draws, draws := s.draws + 1 }

/-- The state after `done` (00_scope.md R12): `RESULT <- 0`. -/
def State.completed (s : State) : State := { s with result := resultDone }

/-- `raise F` (R244): the command ends, and control returns to the HOST as after a successful one. -/
def raise (f : FaultCode) (s : State) : Host.Outcome State Fault Refusal := .next (s.faulted f)

/-- `done`: the command ends (70_reset_and_hazards.md R281). -/
def done (s : State) : Host.Outcome State Fault Refusal := .next s.completed

/-! ### What the HOST does between commands (70_reset_and_hazards.md R282) -/

/-- The HOST writes one byte of a buffer. A byte that exists in no buffer cannot be written (log 5). -/
def hostPoke (b a : Nat) (v : Byte) (s : State) : Host.Outcome State Fault Refusal :=
  match s.mem.byte? b a with
  | none => .fault .noSuchByte
  | some _ => .next { s with mem := memWrite s.mem b a [v] }

/-- The CORE is reset between commands (70 R270, 10_state.md R37): `RESULT = 0`, `TABLES_READY = 0`, scratch unspecified,
buffers untouched, waiting for the first word of a packet (log 1). `CW[0..6]` keep the words they held: the spec gives
`CW` no reset value, DESIGN CHOICE, unsafe (log 3). -/
def hostReset (s : State) : State :=
  { s with result := 0, tablesReady := false, scratch := Scratch.free s.draws, received := 0, draws := s.draws + 1 }

end Sys2Proof.Machine
end

