-- ==== Sys2Proof/Machine/Operands.lean ====
section
/-! DEFINITION. The operand forms: handles (30_encoding.md R91) and slices (20_memory.md R51, R52), and the checks each
command makes on them, in the order of 60_exceptions.md R246. Sums are over unbounded integers (R51). -/

namespace Sys2Proof.Machine

/-- Some handle names no buffer: it is `>= NBUF` (R91). -/
def badHandle (m : Memory) (handles : List Nat) : Bool :=
  handles.any fun h => decide (m.length ≤ h)

/-- The slice of `n` bytes at `off` of buffer `b` is in range: `off + n <= cap(b)` (R51). -/
abbrev inRange (m : Memory) (b off n : Nat) : Prop := off + n ≤ m.cap b

/-- A legal raw-key length (41_key_schedule.md R163). -/
abbrev legalKeyLen (klen : Nat) : Prop := klen = 16 ∨ klen = 24 ∨ klen = 32

/-- A legal round count (10_state.md R25). -/
abbrev legalNr (nr : BitVec 8) : Prop := nr = 10 ∨ nr = 12 ∨ nr = 14

/-- The checks of `CKE` and `CKD` (R158, R246 item 3): key length, raw-key slice, destination slice. -/
def cookFault (m : Memory) (kb koff klen cb coff : Nat) : Option FaultCode :=
  if ¬ legalKeyLen klen then some .invalidKeySize
  else if ¬ inRange m kb koff klen then some .offsetOutOfRange
  else if ¬ inRange m cb coff Config.ckBytes then some .offsetOutOfRange
  else none

/-- The checks of `CKE.Z` and `CKD.Z` (R160): the destination slice alone. -/
def cookZFault (m : Memory) (cb coff : Nat) : Option FaultCode :=
  if ¬ inRange m cb coff Config.ckBytes then some .offsetOutOfRange
  else none

/-- The raw key is illegal for the compatibility policy (R160): its length, or its slice out of range. -/
def badKey (m : Memory) (kb koff klen : Nat) : Bool :=
  decide (¬ legalKeyLen klen) || decide (¬ inRange m kb koff klen)

/-- The bounds checks of `ENC` and `DEC` (R189, R246 item 4): cooked-key slice, source slice, destination slice. -/
def blockFault (m : Memory) (cb coff sb soff db doff : Nat) : Option FaultCode :=
  if ¬ inRange m cb coff Config.ckBytes then some .offsetOutOfRange
  else if m.cap sb < soff then some .offsetOutOfRange
  else if ¬ inRange m sb soff Config.blockBytes then some .invalidBlockLength
  else if m.cap db < doff then some .offsetOutOfRange
  else if ¬ inRange m db doff Config.blockBytes then some .invalidBlockLength
  else none

end Sys2Proof.Machine
end

