-- ==== Sys2Proof/Machine/Tables.lean ====
section
/-! DEFINITION. The Table Generator (40_tables.md): GF(2^8) arithmetic and the rules that define the tables (R111 to
R121), the ROMs with the contents the spec prints, their reads, and `TINIT` (R124). That each ROM holds what its rule
computes is an obligation (Certificates/Slice0/Obligations.lean). -/

namespace Sys2Proof.Machine

/-! ### Arithmetic in GF(2^8) (R111 to R114); the constants are the spec's from general knowledge (93 G1, G2) -/

/-- `xtime(a)` (R112): multiplication by `x`, reduced modulo `0x11B`. -/
def xtime (a : Byte) : Byte := if a.getLsbD 7 then a <<< 1 ^^^ 0x1B else a <<< 1

/-- `xtime` applied `n` times. -/
def xtimes : Nat → Byte → Byte
  | 0, a => a
  | n + 1, a => xtime (xtimes n a)

/-- `a (*) b` (R112): the XOR over the bits `i` of `b` that are set of `xtime^i(a)`. -/
def gmul (a b : Byte) : Byte :=
  (List.range 8).foldl (fun acc i => if b.getLsbD i then acc ^^^ xtimes i a else acc) 0

/-- `a^254` by squaring. -/
def gpow254 (a : Byte) : Byte :=
  let a2 := gmul a a
  let a4 := gmul a2 a2
  let a8 := gmul a4 a4
  let a16 := gmul a8 a8
  let a32 := gmul a16 a16
  let a64 := gmul a32 a32
  let a128 := gmul a64 a64
  gmul (gmul (gmul a2 a4) (gmul a8 a16)) (gmul (gmul a32 a64) a128)

/-- The multiplicative inverse (R113), `inv(a) = a^254`, with `inv(0) = 0`. -/
def ginv (a : Byte) : Byte := gpow254 a

/-- The affine transform over GF(2) (R114). -/
def affine (b : Byte) : Byte :=
  b ^^^ b.rotateLeft 1 ^^^ b.rotateLeft 2 ^^^ b.rotateLeft 3 ^^^ b.rotateLeft 4 ^^^ 0x63

/-- The inverse of the affine transform (R116). -/
def affineInverse (y : Byte) : Byte := y.rotateLeft 1 ^^^ y.rotateLeft 3 ^^^ y.rotateLeft 6 ^^^ 0x05

/-! ### What the Table Generator computes (R115 to R121) -/

/-- `SBOX[x] = affine(inv(x))` (R115). -/
def genSbox (x : Byte) : Byte := affine (ginv x)

/-- `INVSBOX[y] = inv(affine_inverse(y))` (R116). -/
def genInvSbox (y : Byte) : Byte := ginv (affineInverse y)

/-- `RCON[j] = 02^j` (R117). -/
def genRcon (j : Nat) : Byte := xtimes j 0x01

/-- The column of SubBytes then MixColumns for a byte in row 0 (R118), with `s = SBOX[x]`. -/
def genTe0 (s : Byte) : Word := word (gmul 0x02 s) s s (gmul 0x03 s)

/-- The column of inverse SubBytes then inverse MixColumns for a byte in row 0 (R120), with `v = INVSBOX[x]`. -/
def genTd0 (v : Byte) : Word := word (gmul 0x0e v) (gmul 0x09 v) (gmul 0x0d v) (gmul 0x0b v)

/-! ### The ROMs (10_state.md R36), read-only and the same for every run (R126) -/

/-- The `SBOX` ROM as R115 prints it: row `r` holds entries `16r .. 16r+15`, the first in the most significant byte. -/
def sboxRows : List (BitVec 128) := [
  0x637c777bf26b6fc53001672bfed7ab76,
  0xca82c97dfa5947f0add4a2af9ca472c0,
  0xb7fd9326363ff7cc34a5e5f171d83115,
  0x04c723c31896059a071280e2eb27b275,
  0x09832c1a1b6e5aa0523bd6b329e32f84,
  0x53d100ed20fcb15b6acbbe394a4c58cf,
  0xd0efaafb434d338545f9027f503c9fa8,
  0x51a3408f929d38f5bcb6da2110fff3d2,
  0xcd0c13ec5f974417c4a77e3d645d1973,
  0x60814fdc222a908846eeb814de5e0bdb,
  0xe0323a0a4906245cc2d3ac629195e479,
  0xe7c8376d8dd54ea96c56f4ea657aae08,
  0xba78252e1ca6b4c6e8dd741f4bbd8b8a,
  0x703eb5664803f60e613557b986c11d9e,
  0xe1f8981169d98e949b1e87e9ce5528df,
  0x8ca1890dbfe6426841992d0fb054bb16]

/-- The `INVSBOX` ROM as R116 prints it, laid out as `sboxRows`. -/
def invSboxRows : List (BitVec 128) := [
  0x52096ad53036a538bf40a39e81f3d7fb,
  0x7ce339829b2fff87348e4344c4dee9cb,
  0x547b9432a6c2233dee4c950b42fac34e,
  0x082ea16628d924b2765ba2496d8bd125,
  0x72f8f66486689816d4a45ccc5d65b692,
  0x6c704850fdedb9da5e154657a78d9d84,
  0x90d8ab008cbcd30af7e45805b8b34506,
  0xd02c1e8fca3f0f02c1afbd0301138a6b,
  0x3a9111414f67dcea97f2cfcef0b4e673,
  0x96ac7422e7ad3585e2f937e81c75df6e,
  0x47f11a711d29c5896fb7620eaa18be1b,
  0xfc563e4bc6d279209adbc0fe78cd5af4,
  0x1fdda8338807c731b11210592780ec5f,
  0x60517fa919b54a0d2de57a9f93c99cef,
  0xa0e03b4dae2af5b0c8ebbb3c83539961,
  0x172b047eba77d626e169146355210c7d]

/-- The `TE0` ROM as R118 prints it: row `r` holds entries `8r .. 8r+7`, the first in the most significant word. -/
def te0Rows : List (BitVec 256) :=
  [0xc66363a5f87c7c84ee777799f67b7b8dfff2f20dd66b6bbdde6f6fb191c5c554,
   0x6030305002010103ce6767a9562b2b7de7fefe19b5d7d7624dababe6ec76769a,
   0x8fcaca451f82829d89c9c940fa7d7d87effafa15b25959eb8e4747c9fbf0f00b,
   0x41adadecb3d4d4675fa2a2fd45afafea239c9cbf53a4a4f7e47272969bc0c05b,
   0x75b7b7c2e1fdfd1c3d9393ae4c26266a6c36365a7e3f3f41f5f7f70283cccc4f,
   0x6834345c51a5a5f4d1e5e534f9f1f108e2717193abd8d873623131532a15153f,
   0x0804040c95c7c752462323659dc3c35e30181828379696a10a05050f2f9a9ab5,
   0x0e070709241212361b80809bdfe2e23dcdebeb264e2727697fb2b2cdea75759f,
   0x1209091b1d83839e582c2c74341a1a2e361b1b2ddc6e6eb2b45a5aee5ba0a0fb,
   0xa45252f6763b3b4db7d6d6617db3b3ce5229297bdde3e33e5e2f2f7113848497,
   0xa65353f5b9d1d16800000000c1eded2c40202060e3fcfc1f79b1b1c8b65b5bed,
   0xd46a6abe8dcbcb4667bebed97239394b944a4ade984c4cd4b05858e885cfcf4a,
   0xbbd0d06bc5efef2a4faaaae5edfbfb16864343c59a4d4dd76633335511858594,
   0x8a4545cfe9f9f91004020206fe7f7f81a05050f0783c3c44259f9fba4ba8a8e3,
   0xa25151f35da3a3fe804040c0058f8f8a3f9292ad219d9dbc70383848f1f5f504,
   0x63bcbcdf77b6b6c1afdada754221216320101030e5ffff1afdf3f30ebfd2d26d] ++
  [0x81cdcd4c180c0c1426131335c3ecec2fbe5f5fe1359797a2884444cc2e171739,
   0x93c4c45755a7a7f2fc7e7e827a3d3d47c86464acba5d5de73219192be6737395,
   0xc06060a0198181989e4f4fd1a3dcdc7f44222266542a2a7e3b9090ab0b888883,
   0x8c4646cac7eeee296bb8b8d32814143ca7dede79bc5e5ee2160b0b1daddbdb76,
   0xdbe0e03b64323256743a3a4e140a0a1e924949db0c06060a4824246cb85c5ce4,
   0x9fc2c25dbdd3d36e43acacefc46262a6399191a8319595a4d3e4e437f279798b,
   0xd5e7e7328bc8c8436e373759da6d6db7018d8d8cb1d5d5649c4e4ed249a9a9e0,
   0xd86c6cb4ac5656faf3f4f407cfeaea25ca6565aff47a7a8e47aeaee910080818,
   0x6fbabad5f07878884a25256f5c2e2e72381c1c2457a6a6f173b4b4c797c6c651,
   0xcbe8e823a1dddd7ce874749c3e1f1f21964b4bdd61bdbddc0d8b8b860f8a8a85,
   0xe07070907c3e3e4271b5b5c4cc6666aa904848d806030305f7f6f6011c0e0e12,
   0xc26161a36a35355fae5757f969b9b9d01786869199c1c1583a1d1d27279e9eb9,
   0xd9e1e138ebf8f8132b9898b322111133d26969bba9d9d970078e8e89339494a7,
   0x2d9b9bb63c1e1e2215878792c9e9e92087cece49aa5555ff50282878a5dfdf7a,
   0x038c8c8f59a1a1f8098989801a0d0d1765bfbfdad7e6e631844242c6d06868b8,
   0x824141c3299999b05a2d2d771e0f0f117bb0b0cba85454fc6dbbbbd62c16163a]

/-- The `TD0` ROM as R120 prints it, laid out as `te0Rows`. -/
def td0Rows : List (BitVec 256) :=
  [0x51f4a7507e4165531a17a4c33a275e963bab6bcb1f9d45f1acfa58ab4be30393,
   0x2030fa55ad766df688cc7691f5024c254fe5d7fcc52acbd726354480b562a38f,
   0xdeb15a4925ba1b6745ea0e985dfec0e1c32f7502814cf0128d4697a36bd3f9c6,
   0x038f5fe715929c95bf6d7aeb955259dad4be832d587421d349e069298ec9c844,
   0x75c2896af48e797899583e6b27b971ddbee14fb6f088ad17c920ac667dce3ab4,
   0x63df4a18e51a31829751336062537f45b16477e0bb6bae84fe81a01cf9082b94,
   0x704868588f45fd1994de6c87527bf8b7ab73d323724b02e2e31f8f576655ab2a,
   0xb2eb28072fb5c20386c57b9ad33708a5302887f223bfa5b202036abaed16825c,
   0x8acf1c2ba779b492f307f2f04e69e2a165daf4cd0605bed5d134621fc4a6fe8a,
   0x342e539da2f355a0058ae132a4f6eb750b83ec394060efaa5e719f06bd6e1051,
   0x3e218af996dd063ddd3e05ae4de6bd4691548db571c45d050406d46f605015ff,
   0x1998fb24d6bde997894043cc67d99e77b0e842bd07898b88e7195b3879c8eedb,
   0xa17c0a477c420fe9f8841ec90000000009808683322bed481e1170ac6c5a724e,
   0xfd0efffb0f8538563daed51e362d39270a0fd964685ca6219b5b54d124362e3a,
   0x0c0a67b19357e70fb4ee96d21b9b919e80c0c54f61dc20a25a774b691c121a16,
   0xe293ba0ac0a02ae53c22e043121b171d0e090d0bf28bc7ad2db6a8b9141ea9c8] ++
  [0x57f11985af75074cee99ddbba37f60fdf701269f5c72f5bc44663bc55bfb7e34,
   0x8b432976cb23c6dcb6edfc68b8e4f163d731dcca426385101397224084c61120,
   0x854a247dd2bb3df8aef93211c729a16d1d9e2f4bdcb230f30d8652ec77c1e3d0,
   0x2bb3166ca970b999119448fa47e96422a8fc8cc4a0f03f1a567d2cd8223390ef,
   0x87494ec7d938d1c18ccaa2fe98d40b36a6f581cfa57ade28dab78e263fadbfa4,
   0x2c3a9de45078920d6a5fcc9b547e4662f68d13c290d8b8e82e39f75e82c3aff5,
   0x9f5d80be69d0937c6fd52da9cf2512b3c8ac993b10187da7e89c636edb3bbb7b,
   0xcd2678096e5918f4ec9ab701834f9aa8e6956e65aaffe67e21bccf08ef15e8e6,
   0xbae79bd94a6f36ceea9f09d429b07cd631a4b2af2a3f2331c6a5943035a266c0,
   0x744ebc37fc82caa6e090d0b033a7d815f104984a41ecdaf77fcd500e1791f62f,
   0x764dd68d43efb04dccaa4d54e49604df9ed1b5e34c6a881bc12c1fb84665517f,
   0x9d5eea04018c355dfa877473fb0b412eb3671d5a92dbd252e91056336dd64713,
   0x9ad7618c37a10c7a59f8148eeb133c89cea927eeb761c935e11ce5ed7a47b13c,
   0x9cd2df5955f2733f1814ce7973c737bf53f7cdea5ffdaa5bdf3d6f147844db86,
   0xcaaff381b968c43e3824342cc2a3405f161dc372bce2250c283c498bff0d9541,
   0x39a80171080cb3ded8b4e49c6456c1907bcb8461d532b670486c5c74d0b85742]

/-- The `RCON` ROM (R117): ten bytes, index 0 to 9. -/
def rconRom : List Byte := [0x01, 0x02, 0x04, 0x08, 0x10, 0x20, 0x40, 0x80, 0x1b, 0x36]

/-- Entry `x` of a ROM of 256 bytes, 16 a row. -/
def romByte (rows : List (BitVec 128)) (x : Byte) : Byte :=
  ((rows.getD (x.toNat / 16) 0) >>> (8 * (15 - x.toNat % 16))).setWidth 8

/-- Entry `x` of a ROM of 256 words, 8 a row. -/
def romWord (rows : List (BitVec 256)) (x : Byte) : Word :=
  ((rows.getD (x.toNat / 8) 0) >>> (32 * (7 - x.toNat % 8))).setWidth 32

/-- `SBOX[x]` (R115). -/
def sbox (x : Byte) : Byte := romByte sboxRows x

/-- `INVSBOX[x]` (R116). -/
def invSbox (x : Byte) : Byte := romByte invSboxRows x

/-- `RCON[j]` (R117), for `j` in 0..9. -/
def rcon (j : Nat) : Byte := rconRom.getD j 0

/-- `TE0[x]` (R118). -/
def te0 (x : Byte) : Word := romWord te0Rows x

/-- `TE1[x] = rotr_32(TE0[x], 8)` (R119). -/
def te1 (x : Byte) : Word := (te0 x).rotateRight 8

/-- `TE2[x] = rotr_32(TE0[x], 16)` (R119). -/
def te2 (x : Byte) : Word := (te0 x).rotateRight 16

/-- `TE3[x] = rotr_32(TE0[x], 24)` (R119). -/
def te3 (x : Byte) : Word := (te0 x).rotateRight 24

/-- `TD0[x]` (R120). -/
def td0 (x : Byte) : Word := romWord td0Rows x

/-- `TD1[x] = rotr_32(TD0[x], 8)` (R121). -/
def td1 (x : Byte) : Word := (td0 x).rotateRight 8

/-- `TD2[x] = rotr_32(TD0[x], 16)` (R121). -/
def td2 (x : Byte) : Word := (td0 x).rotateRight 16

/-- `TD3[x] = rotr_32(TD0[x], 24)` (R121). -/
def td3 (x : Byte) : Word := (td0 x).rotateRight 24

/-! ### TINIT -/

/-- `TINIT` (R124): the tables are published, `RESULT <- 0`; no buffer is read or written. The ROMs are constants, so
publishing them is setting `TABLES_READY`. The scratch registers are unspecified after it (log 4). -/
def execTinit (s : State) : Host.Outcome State Fault Refusal :=
  done s.begin

end Sys2Proof.Machine
end

