-- ==== Sys2Proof/Machine/KeySchedule.lean ====
section
/-! DEFINITION. The Key Scheduler (41_key_schedule.md): the word functions, the expansion over the scratch registers,
the cooked key, and the meanings of `CKE`, `CKD`, `CKE.Z`, `CKD.Z`. -/

namespace Sys2Proof.Machine

/-! ### The word functions (R152 to R154) -/

/-- `RotWord(w) = rotl_32(w, 8)` (R152). -/
def rotWord (w : Word) : Word := w.rotateLeft 8

/-- `SubWord(w)` (R153): the S-box on each byte. -/
def subWord (w : Word) : Word :=
  word (sbox (byteK 0 w)) (sbox (byteK 1 w)) (sbox (byteK 2 w)) (sbox (byteK 3 w))

/-- `InvMixColumnWord(w)` (R154, 43_decrypt.md R213); the matrix is the spec's from general knowledge (93 G7). -/
def invMixColumnWord (w : Word) : Word :=
  let a0 := byteK 0 w
  let a1 := byteK 1 w
  let a2 := byteK 2 w
  let a3 := byteK 3 w
  word (gmul 0x0e a0 ^^^ gmul 0x0b a1 ^^^ gmul 0x0d a2 ^^^ gmul 0x09 a3)
    (gmul 0x09 a0 ^^^ gmul 0x0e a1 ^^^ gmul 0x0b a2 ^^^ gmul 0x0d a3)
    (gmul 0x0d a0 ^^^ gmul 0x09 a1 ^^^ gmul 0x0e a2 ^^^ gmul 0x0b a3)
    (gmul 0x0b a0 ^^^ gmul 0x0d a1 ^^^ gmul 0x09 a2 ^^^ gmul 0x0e a3)

/-! ### The expansion over the registers (R151, R155) -/

/-- The word that is added to `w[i-Nk]` at step `i`, from the previous word (R151): rotated, substituted and given the
round constant at a multiple of `Nk`, substituted where `Nk = 8` and `i mod Nk = 4`, itself otherwise. -/
def expansionTemp (nk i : Nat) (temp : Word) : Word :=
  if i % nk = 0 then subWord (rotWord temp) ^^^ word (rcon (i / nk - 1)) 0 0 0
  else if nk = 8 ∧ i % nk = 4 then subWord temp
  else temp

/-- Words of a schedule with round count `nr`: `4 * (Nr + 1)` (R163). -/
def scheduleWords (nr : Nat) : Nat := 4 * (nr + 1)

/-- `NK <- KLEN / 4`, `NR <- NK + 6`, and `RK[i] <- be32(key, 4i)` for `i` in `0 .. Nk-1` (R151, R158). -/
def loadKey (key : List Byte) (r : Scratch) : Scratch :=
  let nk := key.length / 4
  { r with
    nk := BitVec.ofNat 4 nk
    nr := BitVec.ofNat 8 (nk + 6)
    rk := Vector.ofFn fun j : Fin 60 => if j.val < nk then be32 key (4 * j.val) else r.rkAt j.val }

/-- `temp <- w[i-1]`, transformed (R151), into `TMP`; `i` is the register `I`. -/
def expandTemp (r : Scratch) : Scratch :=
  { r with tmp := expansionTemp r.nk.toNat r.i.toNat (r.rkAt (r.i.toNat - 1)) }

/-- `w[i] <- w[i-Nk] ^ temp` (R151); `i` is the register `I`, `temp` the register `TMP`. -/
def expandStore (r : Scratch) : Scratch :=
  r.setRk r.i.toNat (r.rkAt (r.i.toNat - r.nk.toNat) ^^^ r.tmp)

/-- The loop `for i in Nk .. 4*(Nr+1) - 1` of R151. -/
def expandEnc (r : Scratch) : Scratch :=
  (List.range' r.nk.toNat (scheduleWords r.nr.toNat - r.nk.toNat)).foldl
    (fun r i => expandStore (expandTemp (r.setI i))) r

/-- `RK[I] <- InvMixColumnWord(RK[I])` (R159). -/
def invMixStore (r : Scratch) : Scratch :=
  r.setRk r.i.toNat (invMixColumnWord (r.rkAt r.i.toNat))

/-- The expansion, then the loop `for I in 4 .. 4*NR - 1` of R159 over the groups `1 .. NR-1`. -/
def expandDec (r : Scratch) : Scratch :=
  let r := expandEnc r
  (List.range' 4 (4 * r.nr.toNat - 4)).foldl (fun r i => invMixStore (r.setI i)) r

/-- The cooked-key layout (R157) in `CKB`: the schedule words big-endian, a zero tail, `NR` in byte 240. -/
def pack (r : Scratch) : Scratch :=
  { r with
    ckb := Vector.ofFn fun j : Fin 241 =>
      if j.val = Config.ckNrOffset then r.nr
      else if j.val < 4 * scheduleWords r.nr.toNat then byteK (j.val % 4) (r.rkAt (j.val / 4))
      else 0 }

/-- The zero-filled cooked key (R157, R160) in `CKB`. -/
def zeroFill (r : Scratch) : Scratch := { r with ckb := Vector.replicate 241 0 }

/-! ### The commands -/

/-- `MemWrite(CB, COFF, 241, CKB)` and `done` (R158). -/
def publish (cb coff : Nat) (r : Scratch) (s : State) : Host.Outcome State Fault Refusal :=
  done { s with scratch := r, mem := memWrite s.mem cb coff r.ckb.toList }

/-- A legal, in-range raw key is read, expanded in one orientation, packed and published (R158, R159). -/
def cook (expand : Scratch → Scratch) (kb koff klen cb coff : Nat) (s : State) :
    Host.Outcome State Fault Refusal :=
  publish cb coff (pack (expand (loadKey (memRead s.mem kb koff klen) s.scratch))) s

/-- A cook command of the validating policy (R156, R158): decode's handle check (R91), the lazy table initialisation
(R125), the checks, then the cooking. -/
def cookValidating (expand : Scratch → Scratch) (kb koff klen cb coff : Nat) (s : State) :
    Host.Outcome State Fault Refusal :=
  if badHandle s.mem [kb, cb] then raise .illegalCommand s
  else
    match cookFault s.mem kb koff klen cb coff with
    | some f => raise f s.begin
    | none => cook expand kb koff klen cb coff s.begin

/-- A cook command of the compatibility policy (R156, R160): an illegal raw key is zero-filled, not a fault. -/
def cookCompat (expand : Scratch → Scratch) (kb koff klen cb coff : Nat) (s : State) :
    Host.Outcome State Fault Refusal :=
  if badHandle s.mem [kb, cb] then raise .illegalCommand s
  else
    match cookZFault s.mem cb coff with
    | some f => raise f s.begin
    | none =>
      if badKey s.mem kb koff klen then publish cb coff (zeroFill s.begin.scratch) s.begin
      else cook expand kb koff klen cb coff s.begin

/-- `CKE` (R158). -/
def execCke (kb koff klen cb coff : Nat) (s : State) : Host.Outcome State Fault Refusal :=
  cookValidating expandEnc kb koff klen cb coff s

/-- `CKD` (R159). -/
def execCkd (kb koff klen cb coff : Nat) (s : State) : Host.Outcome State Fault Refusal :=
  cookValidating expandDec kb koff klen cb coff s

/-- `CKE.Z` (R160). -/
def execCkeZ (kb koff klen cb coff : Nat) (s : State) : Host.Outcome State Fault Refusal :=
  cookCompat expandEnc kb koff klen cb coff s

/-- `CKD.Z` (R161). -/
def execCkdZ (kb koff klen cb coff : Nat) (s : State) : Host.Outcome State Fault Refusal :=
  cookCompat expandDec kb koff klen cb coff s

end Sys2Proof.Machine
end

