-- ==== Sys2Proof/Machine/Encrypt.lean ====
section
/-! DEFINITION. The Block Transform, encryption (42_encrypt.md): loading and storing (R188), the rounds as T-table
lookups over the scratch registers (R186, R187), and the meaning of `ENC` (R189). -/

namespace Sys2Proof.Machine

/-! ### Loading and storing (R188), shared by `ENC` and `DEC` -/

/-- `NR <- ck[240]` (R188). -/
def loadNr (ck : List Byte) (r : Scratch) : Scratch := { r with nr := ck.getD Config.ckNrOffset 0 }

/-- `RK[i] <- be32(ck, 4i)` for `i` in `0 .. 4*(NR+1) - 1` (R188). -/
def loadRk (ck : List Byte) (r : Scratch) : Scratch :=
  { r with
    rk := Vector.ofFn fun j : Fin 60 =>
      if j.val < scheduleWords r.nr.toNat then be32 ck (4 * j.val) else r.rkAt j.val }

/-- `S[c] <- be32(in, 4c)` (R188). -/
def loadS (block : List Byte) (r : Scratch) : Scratch := { r with s := Quad.ofBytes block }

/-- `S[c] <- T[c]` for all `c` (10_state.md R23). -/
def copyT (r : Scratch) : Scratch := { r with s := r.t }

/-- `S[c] <- S[c] ^ RK[4g + c]` (R184). -/
def addRoundKeyS (g : Nat) (r : Scratch) : Scratch := { r with s := r.s.xor (r.group g) }

/-- A block command (R189, 43_decrypt.md R218) around one transform of the registers: decode's handle check (R91), the
lazy table initialisation (R125), the bounds checks, the loads, the transform, the one write. -/
def blockCommand (transform : Scratch → Scratch) (cb coff sb soff db doff : Nat) (s : State) :
    Host.Outcome State Fault Refusal :=
  if badHandle s.mem [cb, sb, db] then raise .illegalCommand s
  else
    match blockFault s.mem cb coff sb soff db doff with
    | some f => raise f s.begin
    | none =>
      let ck := memRead s.mem cb coff Config.ckBytes
      let r := loadNr ck s.begin.scratch
      if ¬ legalNr r.nr then raise .scheduleRoundCountMismatch s.begin
      else
        let r := transform (loadS (memRead s.mem sb soff Config.blockBytes) (loadRk ck r))
        done { s.begin with scratch := r, mem := memWrite s.mem db doff r.s.bytes }

/-! ### The rounds -/

/-- Column `c` of a full round before its round-key word (R186). -/
def teColumn (s : Quad) (c : Nat) : Word :=
  te0 (byteK 0 (s.col c)) ^^^ te1 (byteK 1 (s.col (c + 1))) ^^^ te2 (byteK 2 (s.col (c + 2))) ^^^
    te3 (byteK 3 (s.col (c + 3)))

/-- The sixteen T-table lookups of a full round (R186). -/
def teLookups (s : Quad) : Quad := ⟨teColumn s 0, teColumn s 1, teColumn s 2, teColumn s 3⟩

/-- Column `c` of the final round before its round-key word (R187). -/
def sboxColumn (s : Quad) (c : Nat) : Word :=
  word (sbox (byteK 0 (s.col c))) (sbox (byteK 1 (s.col (c + 1)))) (sbox (byteK 2 (s.col (c + 2))))
    (sbox (byteK 3 (s.col (c + 3))))

/-- The sixteen S-box lookups of the final round (R187). -/
def sboxLookups (s : Quad) : Quad := ⟨sboxColumn s 0, sboxColumn s 1, sboxColumn s 2, sboxColumn s 3⟩

/-- A full round (R186), round `RND`: into `T`, then `S <- T`. -/
def encRound (r : Scratch) : Scratch :=
  copyT { r with t := (teLookups r.s).xor (r.group r.rnd.toNat) }

/-- The final round (R187), round `NR`. -/
def encFinal (r : Scratch) : Scratch :=
  copyT { r with t := (sboxLookups r.s).xor (r.group r.nr.toNat) }

/-- The pipeline of R189: AddRoundKey(0), the full rounds `RND` in `1 .. NR-1`, the final round. -/
def encryptRegs (r : Scratch) : Scratch :=
  let r := addRoundKeyS 0 r
  encFinal ((List.range' 1 (r.nr.toNat - 1)).foldl (fun r n => encRound (r.setRnd n)) r)

/-- `ENC` (R189). -/
def execEnc (cb coff sb soff db doff : Nat) (s : State) : Host.Outcome State Fault Refusal :=
  blockCommand encryptRegs cb coff sb soff db doff s

end Sys2Proof.Machine
end

