-- ==== Sys2Proof/Machine/Decrypt.lean ====
section
/-! DEFINITION. The Block Transform, decryption (43_decrypt.md): the inverse rounds as inverse-T-table lookups over the
scratch registers (R215, R216), and the meaning of `DEC` (R218). -/

namespace Sys2Proof.Machine

/-- Column `c` of a full inverse round before its round-key word (R215). -/
def tdColumn (s : Quad) (c : Nat) : Word :=
  td0 (byteK 0 (s.col c)) ^^^ td1 (byteK 1 (s.col (c + 3))) ^^^ td2 (byteK 2 (s.col (c + 2))) ^^^
    td3 (byteK 3 (s.col (c + 1)))

/-- The sixteen inverse-T-table lookups of a full inverse round (R215). -/
def tdLookups (s : Quad) : Quad := ⟨tdColumn s 0, tdColumn s 1, tdColumn s 2, tdColumn s 3⟩

/-- Column `c` of the final inverse round before its round-key word (R216). -/
def invSboxColumn (s : Quad) (c : Nat) : Word :=
  word (invSbox (byteK 0 (s.col c))) (invSbox (byteK 1 (s.col (c + 3)))) (invSbox (byteK 2 (s.col (c + 2))))
    (invSbox (byteK 3 (s.col (c + 1))))

/-- The sixteen inverse S-box lookups of the final inverse round (R216). -/
def invSboxLookups (s : Quad) : Quad :=
  ⟨invSboxColumn s 0, invSboxColumn s 1, invSboxColumn s 2, invSboxColumn s 3⟩

/-- A full inverse round (R215), round `RND`: into `T`, then `S <- T`. -/
def decRound (r : Scratch) : Scratch :=
  copyT { r with t := (tdLookups r.s).xor (r.group r.rnd.toNat) }

/-- The final inverse round (R216): group 0. -/
def decFinal (r : Scratch) : Scratch :=
  copyT { r with t := (invSboxLookups r.s).xor (r.group 0) }

/-- The pipeline of R218: AddRoundKey(NR), the full inverse rounds `RND` in `NR-1 downto 1`, the final inverse round. -/
def decryptRegs (r : Scratch) : Scratch :=
  let r := addRoundKeyS r.nr.toNat r
  decFinal ((List.range' 1 (r.nr.toNat - 1)).reverse.foldl (fun r n => decRound (r.setRnd n)) r)

/-- `DEC` (R218). -/
def execDec (cb coff sb soff db doff : Nat) (s : State) : Host.Outcome State Fault Refusal :=
  blockCommand decryptRegs cb coff sb soff db doff s

end Sys2Proof.Machine
end

