-- ==== Sys2Proof/Machine/Dispatch.lean ====
section
/-! DEFINITION. What each command does: one arm a constructor, one meaning an arm. -/

namespace Sys2Proof.Machine

def exec (i : Instr) (s : State) : Host.Outcome State Fault Refusal :=
  match i with
  | .tinit => Sys2Proof.Machine.execTinit s
  | .cke kb koff klen cb coff => Sys2Proof.Machine.execCke kb koff klen cb coff s
  | .ckd kb koff klen cb coff => Sys2Proof.Machine.execCkd kb koff klen cb coff s
  | .ckeZ kb koff klen cb coff => Sys2Proof.Machine.execCkeZ kb koff klen cb coff s
  | .ckdZ kb koff klen cb coff => Sys2Proof.Machine.execCkdZ kb koff klen cb coff s
  | .enc cb coff sb soff db doff => Sys2Proof.Machine.execEnc cb coff sb soff db doff s
  | .dec cb coff sb soff db doff => Sys2Proof.Machine.execDec cb coff sb soff db doff s

end Sys2Proof.Machine
end

