-- ==== Sys2Proof/Machine/Issue.lean ====
section
/-! DEFINITION. How a command packet reaches the CORE (10_state.md R31; 30_encoding.md R80, R88): its words are placed
in `CW` one by one, and the last one starts the command. -/

namespace Sys2Proof.Machine

/-- A complete packet is decoded and its command runs; an illegal packet faults (R87; 60_exceptions.md R245). -/
def issue (packet : List Word) (s : State) : Host.Outcome State Fault Refusal :=
  match decode packet with
  | .ok (i, _) => exec i s
  | .error _ => raise .illegalCommand s

/-- The HOST places the next word of the packet in `CW` (R31). The CORE starts the command when it has received
`len(W0)` words (R88); until then it waits. -/
def deliver (w : Word) (s : State) : Host.Outcome State Fault Refusal :=
  let cw := s.cw.put s.received w
  let n := s.received + 1
  if n < packetLen cw.w0 then .next { s with cw := cw, received := n }
  else issue (cw.words n) { s with cw := cw, received := 0 }

/-- The first `n` words of a list, placed in `CW`. -/
def Packet.load (p : Packet) : Nat → List Word → Packet
  | 0, _ => p
  | n + 1, ws => (p.load n ws).put n (ws.getD n 0)

end Sys2Proof.Machine
end

