-- ==== Sys2Proof/Machine/Step.lean ====
section
/-! DEFINITION. One step of the machine: the HOST's next action takes effect (log 1). The step in which the last word of
a packet arrives runs the packet's command, whole (20_memory.md R60). -/

namespace Sys2Proof.Machine

/-- One step: the HOST's next action. With no action pending the CORE is idle and waits (70_reset_and_hazards.md R270).
-/
def step (s : State) : Host.Outcome State Fault Refusal :=
  match s.port with
  | [] => .next s
  | .word w :: rest => deliver w { s with port := rest }
  | .poke b a v :: rest => hostPoke b a v { s with port := rest }
  | .reset :: rest => .next (hostReset { s with port := rest })

/-- `s` with the packet whose bits are `w` (numbered as opcode_table.json numbers them) all but delivered: every word but
the last stands in `CW`, and the last one is the HOST's next action, so that the next step runs the command (log 1). -/
def State.withFetchWord (s : State) (nbits w : Nat) : State :=
  let ws := tableWords nbits w
  let n := packetLen (ws.getD 0 0)
  { s with
    cw := s.cw.load (n - 1) ws
    received := n - 1
    port := .word (ws.getD (n - 1) 0) :: s.port }

end Sys2Proof.Machine
end

