-- ==== Sys2Proof/Machine/Reference.lean ====
section
/-! DEFINITION. The spec's functions on bytes, stated once without registers: the key expansion (41_key_schedule.md
R151, R155) and the cooked key (R157) as lists, the round transformations and the pipelines in single steps
(42_encrypt.md R181 to R185, 43_decrypt.md R211 to R214). Claims say that the commands compute these. -/

namespace Sys2Proof.Machine

/-! ### The schedules -/

/-- The words of a raw key (R151): word `i` is `be32(key, 4i)`. -/
def keyWords (key : List Byte) : List Word := (List.range (key.length / 4)).map fun i => be32 key (4 * i)

/-- `Nr = Nk + 6`, from the key length in bytes (R163). -/
def roundCount (klen : Nat) : Nat := klen / 4 + 6

/-- The next word of the expansion (R151): `w[i-Nk] ^ temp`, with `i` the number of words there are. -/
def nextWord (nk : Nat) (w : List Word) : Word :=
  w.getD (w.length - nk) 0 ^^^ expansionTemp nk w.length (w.getD (w.length - 1) 0)

/-- `n` more steps of the recurrence of R151. -/
def expandFrom (nk : Nat) : Nat → List Word → List Word
  | 0, w => w
  | n + 1, w => expandFrom nk n (w ++ [nextWord nk w])

/-- The encryption schedule of a legal key (R151): `4 * (Nr + 1)` words. -/
def encSchedule (key : List Byte) : List Word :=
  expandFrom (key.length / 4) (scheduleWords (roundCount key.length) - key.length / 4) (keyWords key)

/-- The decryption schedule (R155): the groups `1 .. Nr-1` through `InvMixColumnWord`, the order of groups kept. -/
def decSchedule (key : List Byte) : List Word :=
  (encSchedule key).mapIdx fun i w => if 4 ≤ i ∧ i < 4 * roundCount key.length then invMixColumnWord w else w

/-- The cooked-key layout (R157): the words big-endian, the unused tail zero, `Nr` in the last byte. Beyond what
R157 describes, a count above 255 is taken modulo 256 and more than 60 words make a longer list: DESIGN CHOICE, unsafe
(log 11); only the call forms of R90 can ask for either. -/
def cookedBytes (w : List Word) (nr : Nat) : List Byte :=
  w.flatMap wordBytes ++ List.replicate (Config.ckNrOffset - 4 * w.length) 0 ++ [BitVec.ofNat 8 nr]

/-- The 241 bytes `CKE` writes for a legal key (R158). -/
def cookedEnc (key : List Byte) : List Byte := cookedBytes (encSchedule key) (roundCount key.length)

/-- The 241 bytes `CKD` writes for a legal key (R159). -/
def cookedDec (key : List Byte) : List Byte := cookedBytes (decSchedule key) (roundCount key.length)

/-- The zero-filled cooked key (R157, R160). -/
def cookedZero : List Byte := List.replicate Config.ckBytes 0

/-- The round count a cooked key holds (R188). -/
def cookedNr (ck : List Byte) : Nat := (ck.getD Config.ckNrOffset 0).toNat

/-- The schedule words a cooked key holds (R188). -/
def cookedSchedule (ck : List Byte) : List Word :=
  (List.range (scheduleWords (cookedNr ck))).map fun i => be32 ck (4 * i)

/-! ### The round transformations (R181 to R184) and their inverses (R211 to R213) -/

/-- `SubBytes` (R181): the S-box on every byte. -/
def subBytes (q : Quad) : Quad := ⟨subWord q.w0, subWord q.w1, subWord q.w2, subWord q.w3⟩

/-- Column `c` after `ShiftRows` (R182). -/
def shiftedColumn (q : Quad) (c : Nat) : Word :=
  word (byteK 0 (q.col c)) (byteK 1 (q.col (c + 1))) (byteK 2 (q.col (c + 2))) (byteK 3 (q.col (c + 3)))

/-- `ShiftRows` (R182): row `r` is rotated left by `r` positions (the spec's from general knowledge, 93 G5). -/
def shiftRows (q : Quad) : Quad :=
  ⟨shiftedColumn q 0, shiftedColumn q 1, shiftedColumn q 2, shiftedColumn q 3⟩

/-- `MixColumnWord(w)` (R183); the matrix is the spec's from general knowledge (93 G4). -/
def mixColumnWord (w : Word) : Word :=
  let a0 := byteK 0 w
  let a1 := byteK 1 w
  let a2 := byteK 2 w
  let a3 := byteK 3 w
  word (gmul 0x02 a0 ^^^ gmul 0x03 a1 ^^^ a2 ^^^ a3)
    (a0 ^^^ gmul 0x02 a1 ^^^ gmul 0x03 a2 ^^^ a3)
    (a0 ^^^ a1 ^^^ gmul 0x02 a2 ^^^ gmul 0x03 a3)
    (gmul 0x03 a0 ^^^ a1 ^^^ a2 ^^^ gmul 0x02 a3)

/-- `MixColumns` (R183): every column through `MixColumnWord`. -/
def mixColumns (q : Quad) : Quad :=
  ⟨mixColumnWord q.w0, mixColumnWord q.w1, mixColumnWord q.w2, mixColumnWord q.w3⟩

/-- Round-key group `g` of a schedule (00_scope.md R14). -/
def groupOf (w : List Word) (g : Nat) : Quad :=
  ⟨w.getD (4 * g) 0, w.getD (4 * g + 1) 0, w.getD (4 * g + 2) 0, w.getD (4 * g + 3) 0⟩

/-- `AddRoundKey(g)` (R184). -/
def addRoundKey (w : List Word) (g : Nat) (q : Quad) : Quad := q.xor (groupOf w g)

/-- The inverse S-box on every byte of a column. -/
def invSubWord (w : Word) : Word :=
  word (invSbox (byteK 0 w)) (invSbox (byteK 1 w)) (invSbox (byteK 2 w)) (invSbox (byteK 3 w))

/-- `InvSubBytes` (R211). -/
def invSubBytes (q : Quad) : Quad := ⟨invSubWord q.w0, invSubWord q.w1, invSubWord q.w2, invSubWord q.w3⟩

/-- Column `c` after `InvShiftRows` (R212). -/
def unshiftedColumn (q : Quad) (c : Nat) : Word :=
  word (byteK 0 (q.col c)) (byteK 1 (q.col (c + 3))) (byteK 2 (q.col (c + 2))) (byteK 3 (q.col (c + 1)))

/-- `InvShiftRows` (R212): row `r` is rotated right by `r` positions. -/
def invShiftRows (q : Quad) : Quad :=
  ⟨unshiftedColumn q 0, unshiftedColumn q 1, unshiftedColumn q 2, unshiftedColumn q 3⟩

/-- `InvMixColumns` (R213): every column through `InvMixColumnWord`. -/
def invMixColumns (q : Quad) : Quad :=
  ⟨invMixColumnWord q.w0, invMixColumnWord q.w1, invMixColumnWord q.w2, invMixColumnWord q.w3⟩

/-! ### The pipelines in single steps -/

/-- A full round (R185). -/
def encStep (w : List Word) (q : Quad) (r : Nat) : Quad := addRoundKey w r (mixColumns (shiftRows (subBytes q)))

/-- Encryption (R185) with schedule `w` and round count `nr`. -/
def encryptSteps (w : List Word) (nr : Nat) (q : Quad) : Quad :=
  addRoundKey w nr (shiftRows (subBytes ((List.range' 1 (nr - 1)).foldl (encStep w) (addRoundKey w 0 q))))

/-- A full inverse round (R214). -/
def decStep (w : List Word) (q : Quad) (r : Nat) : Quad :=
  addRoundKey w r (invMixColumns (invShiftRows (invSubBytes q)))

/-- Decryption (R214) with the decryption schedule `w` and round count `nr`. -/
def decryptSteps (w : List Word) (nr : Nat) (q : Quad) : Quad :=
  addRoundKey w 0 (invShiftRows (invSubBytes
    ((List.range' 1 (nr - 1)).reverse.foldl (decStep w) (addRoundKey w nr q))))

/-- What `ENC` computes from the 241 bytes of a cooked key and the 16 of a block (R189). -/
def encryptBytes (ck block : List Byte) : List Byte :=
  (encryptSteps (cookedSchedule ck) (cookedNr ck) (Quad.ofBytes block)).bytes

/-- What `DEC` computes from the 241 bytes of a cooked key and the 16 of a block (R218). -/
def decryptBytes (ck block : List Byte) : List Byte :=
  (decryptSteps (cookedSchedule ck) (cookedNr ck) (Quad.ofBytes block)).bytes

end Sys2Proof.Machine
end

