-- ==== Sys2Proof/Safety.lean ====
section
/-! DEFINITION. The terms claims are stated in: what the HOST sees, the invariant every step keeps, well-formed cooked
keys (70_reset_and_hazards.md R273) and disjoint slices (R275). -/

namespace Sys2Proof.Machine

/-- What the HOST can see of the CORE (10_state.md R29 to R32): the buffers and `RESULT`. -/
structure HostView where
  mem : Memory
  result : BitVec 8
  deriving DecidableEq, Repr

/-- The HOST's view of a state. -/
def State.hostView (s : State) : HostView := ⟨s.mem, s.result⟩

/-- The words that stand in `CW` are a proper part of a packet: the command starts with its last word (10_state.md
R31, 30_encoding.md R88). -/
abbrev State.packetPending (s : State) : Prop := s.received = 0 ∨ s.received < packetLen s.cw.w0

/-- The invariant of every step: the buffers keep their canonical form, `RESULT` is one of the codes 0 to 5 (R30), and
`CW` holds a proper part of a packet. -/
abbrev State.Inv (s : State) : Prop := s.mem.wf ∧ s.result.toNat ≤ 5 ∧ s.packetPending

/-- The shape of the memory, `NBUF` and every `cap(b)`: fixed for a run (20_memory.md R50). -/
def Memory.shape (m : Memory) : List Nat := m.map Buffer.cap

/-- The raw key a cooked key starts with, for its round count (R273): `ck[0 .. 4*Nk - 1]` with `Nk = ck[240] - 6`. -/
def rawKeyEnc (ck : List Byte) : List Byte := ck.take (4 * (cookedNr ck - 6))

/-- The raw key recovered from a decryption cooked key (R273, its note): words `0..3` as they are, words `4 .. Nk-1`
through `MixColumnWord`. -/
def rawKeyDec (ck : List Byte) : List Byte :=
  ((List.range (cookedNr ck - 6)).map fun i =>
    if i < 4 then be32 ck (4 * i) else mixColumnWord (be32 ck (4 * i))).flatMap wordBytes

/-- `WellCookedEnc(ck)` (R273). -/
abbrev WellCookedEnc (ck : List Byte) : Prop :=
  legalNr (ck.getD Config.ckNrOffset 0) ∧ ck = cookedEnc (rawKeyEnc ck)

/-- `WellCookedDec(ck)` (R273). -/
abbrev WellCookedDec (ck : List Byte) : Prop :=
  legalNr (ck.getD Config.ckNrOffset 0) ∧ ck = cookedDec (rawKeyDec ck)

/-- Two slices share no byte (R275). -/
abbrev DisjointSlices (b off n b' off' n' : Nat) : Prop := b ≠ b' ∨ off + n ≤ off' ∨ off' + n' ≤ off

/-- The handles among a command's operands, in packet order (30_encoding.md R91). -/
def handlesOf : Instr → List Nat
  | .tinit => []
  | .cke kb _ _ cb _ => [kb, cb]
  | .ckd kb _ _ cb _ => [kb, cb]
  | .ckeZ kb _ _ cb _ => [kb, cb]
  | .ckdZ kb _ _ cb _ => [kb, cb]
  | .enc cb _ sb _ db _ => [cb, sb, db]
  | .dec cb _ sb _ db _ => [cb, sb, db]

/-- A byte of the one slice a command may write (20_memory.md R58): 241 bytes of the cooked-key destination, or the 16
bytes of the block destination; `TINIT` writes none. -/
def InWindow : Instr → Nat → Nat → Prop
  | .tinit, _, _ => False
  | .cke _ _ _ cb coff, b, a => b = cb ∧ coff ≤ a ∧ a < coff + Config.ckBytes
  | .ckd _ _ _ cb coff, b, a => b = cb ∧ coff ≤ a ∧ a < coff + Config.ckBytes
  | .ckeZ _ _ _ cb coff, b, a => b = cb ∧ coff ≤ a ∧ a < coff + Config.ckBytes
  | .ckdZ _ _ _ cb coff, b, a => b = cb ∧ coff ≤ a ∧ a < coff + Config.ckBytes
  | .enc _ _ _ _ db doff, b, a => b = db ∧ doff ≤ a ∧ a < doff + Config.blockBytes
  | .dec _ _ _ _ db doff, b, a => b = db ∧ doff ≤ a ∧ a < doff + Config.blockBytes

/-- The whole write window of a command is a slice in range (20_memory.md R51): its buffer exists and holds it from its
first byte to its last. -/
def WindowInRange (m : Memory) : Instr → Prop
  | .tinit => True
  | .cke _ _ _ cb coff => cb < m.length ∧ coff + Config.ckBytes ≤ m.cap cb
  | .ckd _ _ _ cb coff => cb < m.length ∧ coff + Config.ckBytes ≤ m.cap cb
  | .ckeZ _ _ _ cb coff => cb < m.length ∧ coff + Config.ckBytes ≤ m.cap cb
  | .ckdZ _ _ _ cb coff => cb < m.length ∧ coff + Config.ckBytes ≤ m.cap cb
  | .enc _ _ _ _ db doff => db < m.length ∧ doff + Config.blockBytes ≤ m.cap db
  | .dec _ _ _ _ db doff => db < m.length ∧ doff + Config.blockBytes ≤ m.cap db

/-- A run in which no fault has been recorded (60_exceptions.md R251): `RESULT` shows the completed code. -/
abbrev State.noFault (s : State) : Prop := s.result = resultDone

end Sys2Proof.Machine
end

