-- ==== Sys2Proof/Certificates/Slice0/Obligations.lean ====
section
/-! DEFINITION. The statements for the provers. -/

open Sys2Proof
open Sys2Proof.Machine

/-! ### Encoding (30_encoding.md) -/

/-- Decoding the packet of a well-formed command gives the command back, with every operand, and leaves the words after
it alone (R80 to R86). -/
def Obligations.DecodeOfEncodeIsIdentity : Prop :=
  ∀ (i : Instr) (rest : List Word), i.wellFormed = true → decode (encode i ++ rest) = .ok (i, rest)

/-- Every packet the decoder accepts is the packet of one well-formed command: the words it took are that command's. -/
def Obligations.AcceptedWordsAreThePacket : Prop :=
  ∀ (ws : List Word) (i : Instr) (rest : List Word),
    decode ws = .ok (i, rest) → i.wellFormed = true ∧ encode i ++ rest = ws

/-- The worked encodings of 30_encoding.md section 6. -/
def Obligations.WorkedPacketsDecode : Prop :=
  decode [0x00000001] = .ok (.tinit, []) ∧
  decode [0x00000010, 0x00000000, 0x00000000, 0x00000010, 0x00000001, 0x00000000] = .ok (.cke 0 0 16 1 0, []) ∧
  decode [0x00000011, 0x00000000, 0x00000000, 0x00000020, 0x00000001, 0x00000000] = .ok (.ckd 0 0 32 1 0, []) ∧
  decode [0x00000018, 0x00000000, 0x00000003, 0x00000005, 0x00000001, 0x00000000] = .ok (.ckeZ 0 3 5 1 0, []) ∧
  decode [0x00000020, 0x00000001, 0x00000000, 0x00000002, 0x00000000, 0x00000002, 0x00000000] =
    .ok (.enc 1 0 2 0 2 0, []) ∧
  decode [0x00000021, 0x00000001, 0x00000000, 0x00000002, 0x00000010, 0x00000002, 0x00000020] =
    .ok (.dec 1 0 2 16 2 32, []) ∧
  decode [0x00000000] = .error .illegalCommand ∧ decode [0x00000002] = .error .illegalCommand ∧
  decode [0x00000120] = .error .illegalCommand ∧ decode [0x80000020] = .error .illegalCommand

/-- R87: a first word that is none of the seven of R86 is a packet of one word, and the command faults with
`IllegalCommand`: `RESULT` is 5, nothing is written, and the words after it are the next packets. That `TABLES_READY`
stays as it was is the model's own reading (log 6, DEDUCED). -/
def Obligations.IllegalWordFaultsAlone : Prop :=
  ∀ (s : State) (w0 : Word) (rest : List HostEvent),
    s.port = .word w0 :: rest → s.received = 0 →
    w0 ∉ ([0x00000001, 0x00000010, 0x00000011, 0x00000018, 0x00000019, 0x00000020, 0x00000021] : List Word) →
    packetLen w0 = 1 ∧ (∀ ws, decode (w0 :: ws) = .error .illegalCommand) ∧
    ∃ t, step s = .next t ∧ t.result = 5 ∧ t.mem = s.mem ∧ t.tablesReady = s.tablesReady ∧ t.received = 0 ∧
      t.port = rest

/-- R88: the packet length is decided by `W0` alone, and a command starts when `len(W0)` words have been received: until
then a word is only placed in its register `CW`. -/
def Obligations.PacketLengthDecidesStart : Prop :=
  (∀ w0 : Word, packetLen w0 =
    if w0 ∈ ([0x00000010, 0x00000011, 0x00000018, 0x00000019] : List Word) then 6
    else if w0 ∈ ([0x00000020, 0x00000021] : List Word) then 7
    else 1) ∧
  ∀ (s : State) (w : Word) (rest : List HostEvent), s.port = .word w :: rest →
    (s.received + 1 < packetLen (s.cw.put s.received w).w0 →
      step s = .next { s with port := rest, cw := s.cw.put s.received w, received := s.received + 1 }) ∧
    (packetLen (s.cw.put s.received w).w0 ≤ s.received + 1 →
      step s = issue ((s.cw.put s.received w).words (s.received + 1))
        { s with port := rest, cw := s.cw.put s.received w, received := 0 })

/-- When the word that arrives completes a packet that decodes to a command, the step is that command's `exec`, with the
packet registers filled, the word taken from the port and the core ready for the next packet. -/
def Obligations.StepRunsDecodedCommand : Prop :=
  ∀ (s : State) (w : Word) (rest : List HostEvent) (i : Instr),
    s.port = .word w :: rest →
    packetLen (s.cw.put s.received w).w0 ≤ s.received + 1 →
    decode ((s.cw.put s.received w).words (s.received + 1)) = .ok (i, []) →
    step s = exec i { s with port := rest, cw := s.cw.put s.received w, received := 0 }

/-- From an idle core, delivering the packet of a well-formed command word by word runs exactly that command, in as many
steps as the packet has words. -/
def Obligations.DeliveredPacketRunsCommand : Prop :=
  ∀ (s : State) (i : Instr) (rest : List HostEvent),
    i.wellFormed = true → s.received = 0 → s.port = (encode i).map HostEvent.word ++ rest →
    core.run (encode i).length s =
      exec i { s with port := rest, cw := s.cw.load (encode i).length (encode i), received := 0 }

/-! ### Reset and the HOST (10_state.md R37, 70_reset_and_hazards.md R270, R282) -/

/-- After reset `RESULT` is 0 and `TABLES_READY` is 0 (R37); no word of a packet has been received, and the idle core
stays as it is (the model's reading of R270, log 1). -/
def Obligations.ResetLeavesCoreIdle : Prop :=
  State.reset.result = 0 ∧ State.reset.tablesReady = false ∧ State.reset.received = 0 ∧
    ∀ s : State, s.port = [] → step s = .next s

/-- A reset between commands (the model's HOST action, log 1) clears `RESULT` and `TABLES_READY` and touches no buffer (R37). -/
def Obligations.HostResetKeepsBuffers : Prop :=
  ∀ (s : State) (rest : List HostEvent), s.port = .reset :: rest →
    ∃ t, step s = .next t ∧ t.result = 0 ∧ t.tablesReady = false ∧ t.received = 0 ∧ t.mem = s.mem ∧ t.port = rest

/-- Between commands the HOST writes any byte of any buffer (R282; the model's HOST action, log 1): that byte alone changes. A byte that exists in no
buffer stops the model (the model's own fault, log 5). -/
def Obligations.HostWriteChangesOneByte : Prop :=
  ∀ (s : State) (b a : Nat) (v : Byte) (rest : List HostEvent), s.port = .poke b a v :: rest →
    (b < s.mem.length → a < s.mem.cap b →
      ∃ t, step s = .next t ∧ t.mem.byte? b a = some v ∧
        (∀ b' a', ¬ (b' = b ∧ a' = a) → t.mem.byte? b' a' = s.mem.byte? b' a') ∧
        t = { s with port := rest, mem := t.mem }) ∧
    (¬ (b < s.mem.length ∧ a < s.mem.cap b) → step s = .fault .noSuchByte)

/-! ### The buffers (20_memory.md) -/

/-- `MemWrite` on an in-range slice sets each byte of the slice to the written one and leaves every other byte of every
buffer as it was (R57); `MemRead` then reads the written bytes back, in order (R56). -/
def Obligations.MemWriteSetsExactlyItsBytes : Prop :=
  ∀ (m : Memory) (b a : Nat) (vs : List Byte), b < m.length → inRange m b a vs.length →
    (∀ j (h : j < vs.length), (memWrite m b a vs).byte? b (a + j) = some vs[j]) ∧
    (∀ b' a', ¬ (b' = b ∧ a ≤ a' ∧ a' < a + vs.length) → (memWrite m b a vs).byte? b' a' = m.byte? b' a') ∧
    memRead (memWrite m b a vs) b a vs.length = vs

/-- Two memories in canonical form with the same buffers and the same bytes are the same data. -/
def Obligations.EqualBytesMakeEqualMemories : Prop :=
  ∀ m m' : Memory, m.wf → m'.wf → Memory.shape m = Memory.shape m' →
    (∀ b a, m.byte? b a = m'.byte? b a) → m = m'

/-- The invariant of every step: the memory's canonical form, a `RESULT` of 0 to 5 (R30), and in `CW` only a proper part
of a packet. -/
def Obligations.StepKeepsInvariant : Prop :=
  ∀ s t : State, s.Inv → step s = .next t → t.Inv

/-- The reset state meets the invariant. -/
def Obligations.ResetMeetsInvariant : Prop := State.reset.Inv

/-- R50: "`NBUF` and every `cap(b)` are fixed for a run": no step changes them. -/
def Obligations.StepKeepsBufferShape : Prop :=
  ∀ s t : State, step s = .next t → Memory.shape t.mem = Memory.shape s.mem

/-- A command that changes a byte has completed (R244); the byte lies in the command's one write window (R58); and that
window, from its first byte to its last, is a slice in range (R51): 241 bytes of the cooked-key destination, or the 16 of
the block destination. No command writes outside, and none writes where its window does not fit. -/
def Obligations.ChangedByteLiesInWindow : Prop :=
  ∀ (i : Instr) (s t : State) (b a : Nat), exec i s = .next t → t.mem.byte? b a ≠ s.mem.byte? b a →
    t.result = 0 ∧ InWindow i b a ∧ WindowInRange s.mem i

/-! ### Every command -/

/-- Every command ends, whatever its operands and the state, in a state whose `RESULT` is 0 to 5 (R281, R30). -/
def Obligations.EveryCommandEnds : Prop :=
  ∀ (i : Instr) (s : State), ∃ t, exec i s = .next t ∧ t.result.toNat ≤ 5

/-- The frame of every command: every byte of every buffer outside its write window reads as before, and so do the packet
registers, the count of received words, the HOST's pending actions and the shape of the memory. -/
def Obligations.CommandFrame : Prop :=
  ∀ (i : Instr) (s t : State), exec i s = .next t →
    (∀ b a, ¬ InWindow i b a → t.mem.byte? b a = s.mem.byte? b a) ∧
    Memory.shape t.mem = Memory.shape s.mem ∧ t.cw = s.cw ∧ t.received = s.received ∧ t.port = s.port

/-- A command that faults writes no buffer, and keeps the `TABLES_READY` it had reached (R244): never back to 0. -/
def Obligations.FaultWritesNoBuffer : Prop :=
  ∀ (i : Instr) (s t : State), exec i s = .next t → t.result ≠ 0 →
    t.mem = s.mem ∧ (s.tablesReady = true → t.tablesReady = true)

/-- R29, R30, R32: what the HOST sees after a command is a function of the command and the buffers alone. Two states with
the same buffers, whatever their `RESULT`, `TABLES_READY`, scratch registers, free values, packet registers and pending
actions, show the HOST the same buffers and the same `RESULT` after the command. -/
def Obligations.HiddenStateIsUnobservable : Prop :=
  ∀ (i : Instr) (s s' : State), s.mem = s'.mem →
    ∃ t t', exec i s = .next t ∧ exec i s' = .next t' ∧ t.hostView = t'.hostView

/-- R32: `TABLES_READY` "never returns to 0 before the next reset". -/
def Obligations.TablesReadyStaysSet : Prop :=
  ∀ s t : State, step s = .next t → s.tablesReady = true → (∀ rest, s.port ≠ .reset :: rest) → t.tablesReady = true

/-- R91: a handle operand that names no buffer faults with `IllegalCommand` before any other check; nothing but `RESULT`
(and the unspecified scratch registers) changes. That `TABLES_READY` is not yet set by then is the model's own reading
(log 6, DEDUCED). -/
def Obligations.BadHandleFaultsFirst : Prop :=
  ∀ (i : Instr) (s : State), (∃ h ∈ handlesOf i, s.mem.length ≤ h) → exec i s = .next (s.faulted .illegalCommand)

/-- R241, R243 and the rest of the fault list (60_exceptions.md R240, R242, R245, R246): after a command, `RESULT` shows
each code exactly when that code's cause is the first that holds. Code 1 comes from `KLEN` alone, in `CKE` and `CKD`
only; code 4 from byte 240 alone, in `ENC` and `DEC` only, after all bounds checks. -/
def Obligations.EachFaultCodeHasItsCause : Prop :=
  ∀ (i : Instr) (s t : State), exec i s = .next t →
    (t.result = 5 ↔ ∃ h ∈ handlesOf i, s.mem.length ≤ h) ∧
    (t.result = 1 ↔ ∃ kb koff klen cb coff, (i = .cke kb koff klen cb coff ∨ i = .ckd kb koff klen cb coff) ∧
      kb < s.mem.length ∧ cb < s.mem.length ∧ ¬ legalKeyLen klen) ∧
    (t.result = 2 ↔ ∃ cb coff sb soff db doff, (i = .enc cb coff sb soff db doff ∨ i = .dec cb coff sb soff db doff) ∧
      cb < s.mem.length ∧ sb < s.mem.length ∧ db < s.mem.length ∧ coff + 241 ≤ s.mem.cap cb ∧
      (soff ≤ s.mem.cap sb ∧ s.mem.cap sb < soff + 16 ∨
        soff + 16 ≤ s.mem.cap sb ∧ doff ≤ s.mem.cap db ∧ s.mem.cap db < doff + 16)) ∧
    (t.result = 3 ↔
      (∃ kb koff klen cb coff, (i = .cke kb koff klen cb coff ∨ i = .ckd kb koff klen cb coff) ∧
        kb < s.mem.length ∧ cb < s.mem.length ∧ legalKeyLen klen ∧
        (s.mem.cap kb < koff + klen ∨ s.mem.cap cb < coff + 241)) ∨
      (∃ kb koff klen cb coff, (i = .ckeZ kb koff klen cb coff ∨ i = .ckdZ kb koff klen cb coff) ∧
        kb < s.mem.length ∧ cb < s.mem.length ∧ s.mem.cap cb < coff + 241) ∨
      ∃ cb coff sb soff db doff, (i = .enc cb coff sb soff db doff ∨ i = .dec cb coff sb soff db doff) ∧
        cb < s.mem.length ∧ sb < s.mem.length ∧ db < s.mem.length ∧
        (s.mem.cap cb < coff + 241 ∨ s.mem.cap sb < soff ∨ soff + 16 ≤ s.mem.cap sb ∧ s.mem.cap db < doff)) ∧
    (t.result = 4 ↔ ∃ cb coff sb soff db doff, (i = .enc cb coff sb soff db doff ∨ i = .dec cb coff sb soff db doff) ∧
      cb < s.mem.length ∧ sb < s.mem.length ∧ db < s.mem.length ∧ coff + 241 ≤ s.mem.cap cb ∧
      soff + 16 ≤ s.mem.cap sb ∧ doff + 16 ≤ s.mem.cap db ∧ ¬ legalNr ((memRead s.mem cb coff 241).getD 240 0))

/-! ### The Table Generator (40_tables.md) -/

/-- R112: the laws of `(*)`, the multiples the core uses, and the worked values. -/
def Obligations.FieldMultiplicationLaws : Prop :=
  (∀ a b : Byte, gmul a b = gmul b a) ∧
  (∀ a b c : Byte, gmul (gmul a b) c = gmul a (gmul b c)) ∧
  (∀ a b c : Byte, gmul a (b ^^^ c) = gmul a b ^^^ gmul a c) ∧
  (∀ a : Byte, gmul a 0x01 = a) ∧ (∀ a : Byte, gmul a 0x00 = 0x00) ∧
  (∀ a : Byte, gmul 0x02 a = xtime a ∧ gmul 0x03 a = xtime a ^^^ a ∧ gmul 0x09 a = xtimes 3 a ^^^ a ∧
    gmul 0x0b a = xtimes 3 a ^^^ xtime a ^^^ a ∧ gmul 0x0d a = xtimes 3 a ^^^ xtimes 2 a ^^^ a ∧
    gmul 0x0e a = xtimes 3 a ^^^ xtimes 2 a ^^^ xtime a) ∧
  gmul 0x02 0x80 = 0x1B ∧ gmul 0x03 0x80 = 0x9B ∧ gmul 0x57 0x83 = 0xC1 ∧ gmul 0x57 0x13 = 0xFE ∧
  gmul 0x0e 0x01 = 0x0E ∧ gmul 0x09 0xFF = 0x46

/-- R113: for `a` not 0, `inv(a)` is the unique byte with `a (*) inv(a) = 01`; it is `a^254`; `inv(00) = 00`; and the worked
values. -/
def Obligations.InverseIsUnique : Prop :=
  (∀ a : Byte, a ≠ 0 → gmul a (ginv a) = 0x01 ∧ ∀ b : Byte, gmul a b = 0x01 → b = ginv a) ∧
  (∀ a : Byte, ginv a = (gmul a)^[254] 0x01) ∧ ginv 0x00 = 0x00 ∧
  ginv 0x01 = 0x01 ∧ ginv 0x02 = 0x8D ∧ ginv 0x53 = 0xCA

/-- R115: the `SBOX` ROM is `affine(inv(x))` for every byte, and a permutation. -/
def Obligations.SboxRomIsAffineOfInverse : Prop :=
  (∀ x : Byte, sbox x = affine (ginv x)) ∧ Function.Bijective sbox

/-- R116: the `INVSBOX` ROM is the inverse permutation, and `inv(affine_inverse(y))` for every byte. -/
def Obligations.InvSboxRomIsInverse : Prop :=
  (∀ x : Byte, invSbox (sbox x) = x) ∧ (∀ y : Byte, sbox (invSbox y) = y) ∧
  (∀ y : Byte, invSbox y = ginv (affineInverse y))

/-- The `RCON` ROM holds the powers of `02` (R117). -/
def Obligations.RconRomIsPowers : Prop :=
  rconRom.length = 10 ∧ rcon 0 = 0x01 ∧ ∀ j, j + 1 < 10 → rcon (j + 1) = xtime (rcon j)

/-- R118, R119: the four forward T-tables. -/
def Obligations.ForwardTablesFuseMixColumns : Prop :=
  ∀ x : Byte,
    te0 x = word (gmul 0x02 (sbox x)) (sbox x) (sbox x) (gmul 0x03 (sbox x)) ∧
    te1 x = word (gmul 0x03 (sbox x)) (gmul 0x02 (sbox x)) (sbox x) (sbox x) ∧
    te2 x = word (sbox x) (gmul 0x03 (sbox x)) (gmul 0x02 (sbox x)) (sbox x) ∧
    te3 x = word (sbox x) (sbox x) (gmul 0x03 (sbox x)) (gmul 0x02 (sbox x))

/-- R120, R121: the four inverse T-tables, with `v = INVSBOX[x]`. -/
def Obligations.InverseTablesFuseInvMixColumns : Prop :=
  ∀ x : Byte,
    td0 x = word (gmul 0x0e (invSbox x)) (gmul 0x09 (invSbox x)) (gmul 0x0d (invSbox x)) (gmul 0x0b (invSbox x)) ∧
    td1 x = word (gmul 0x0b (invSbox x)) (gmul 0x0e (invSbox x)) (gmul 0x09 (invSbox x)) (gmul 0x0d (invSbox x)) ∧
    td2 x = word (gmul 0x0d (invSbox x)) (gmul 0x0b (invSbox x)) (gmul 0x0e (invSbox x)) (gmul 0x09 (invSbox x)) ∧
    td3 x = word (gmul 0x09 (invSbox x)) (gmul 0x0d (invSbox x)) (gmul 0x0b (invSbox x)) (gmul 0x0e (invSbox x))

/-- `TINIT` completes in every state (R124): `RESULT` 0, `TABLES_READY` 1, no buffer read or written, and every later
command shows the HOST what it would have shown without the `TINIT`. -/
def Obligations.TinitCompletesUnobservably : Prop :=
  ∀ s : State, ∃ t, exec .tinit s = .next t ∧ t.result = 0 ∧ t.tablesReady = true ∧ t.mem = s.mem ∧
    t.cw = s.cw ∧ t.received = s.received ∧ t.port = s.port ∧
    ∀ i : Instr, ∃ u v, exec i t = .next u ∧ exec i s = .next v ∧ u.hostView = v.hostView

/-! ### The Key Scheduler (41_key_schedule.md) -/

/-- R152, R153: `RotWord` and `SubWord` byte by byte, and their worked values. -/
def Obligations.WordFunctionsActOnBytes : Prop :=
  (∀ w : Word, rotWord w = word (byteK 1 w) (byteK 2 w) (byteK 3 w) (byteK 0 w)) ∧ rotWord 0x43444546 = 0x44454643 ∧
  (∀ w : Word, ∀ k, k < 4 → byteK k (subWord w) = sbox (byteK k w)) ∧ subWord 0x44454643 = 0x1B6E5A1A

/-- R151: the encryption schedule has `4 * (Nr + 1)` words; the first `Nk` are the key; each later one is the word `Nk`
back, exclusive-or the previous word: rotated, substituted and given the round constant at a multiple of `Nk`,
substituted where `Nk = 8` and `i mod 8 = 4`, as it is otherwise. -/
def Obligations.EncScheduleFollowsRecurrence : Prop :=
  ∀ key : List Byte, legalKeyLen key.length →
    (encSchedule key).length = 4 * (key.length / 4 + 6 + 1) ∧
    (∀ i, i < key.length / 4 → (encSchedule key).getD i 0 = be32 key (4 * i)) ∧
    ∀ i, key.length / 4 ≤ i → i < 4 * (key.length / 4 + 6 + 1) →
      (encSchedule key).getD i 0 = (encSchedule key).getD (i - key.length / 4) 0 ^^^
        (if i % (key.length / 4) = 0 then
          subWord (rotWord ((encSchedule key).getD (i - 1) 0)) ^^^ word (rcon (i / (key.length / 4) - 1)) 0 0 0
        else if key.length / 4 = 8 ∧ i % (key.length / 4) = 4 then subWord ((encSchedule key).getD (i - 1) 0)
        else (encSchedule key).getD (i - 1) 0)

/-- R155: the decryption schedule has the same length and order of groups; group 0 and group `Nr` are unchanged, and each
word of the groups between is passed through `InvMixColumnWord`. -/
def Obligations.DecScheduleTransformsInnerGroups : Prop :=
  ∀ key : List Byte, legalKeyLen key.length →
    (decSchedule key).length = (encSchedule key).length ∧
    ∀ g c, g ≤ roundCount key.length → c < 4 →
      (decSchedule key).getD (4 * g + c) 0 =
        if g = 0 ∨ g = roundCount key.length then (encSchedule key).getD (4 * g + c) 0
        else invMixColumnWord ((encSchedule key).getD (4 * g + c) 0)

/-- Applying `MixColumnWord` to the inner words of a decryption schedule gives back the encryption schedule (R162 item
6). -/
def Obligations.MixColumnsRecoversEncSchedule : Prop :=
  ∀ (key : List Byte) (i : Nat), legalKeyLen key.length → 4 ≤ i → i < 4 * roundCount key.length →
    mixColumnWord ((decSchedule key).getD i 0) = (encSchedule key).getD i 0

/-- The cooked-key layout (R157), for both orientations: 241 bytes, the schedule words big-endian, a zero tail, the round
count in byte 240; and the encryption cooked key starts with the raw key (R151). -/
def Obligations.CookedKeyLayout : Prop :=
  ∀ key : List Byte, legalKeyLen key.length →
    ∀ p ∈ [(cookedEnc key, encSchedule key), (cookedDec key, decSchedule key)],
      p.1.length = 241 ∧
      (∀ i k, i < 4 * (roundCount key.length + 1) → k < 4 → p.1.getD (4 * i + k) 0 = byteK k (p.2.getD i 0)) ∧
      (∀ j, 16 * (roundCount key.length + 1) ≤ j → j < 240 → p.1.getD j 0 = 0) ∧
      p.1.getD 240 0 = BitVec.ofNat 8 (roundCount key.length) ∧
      (cookedEnc key).take key.length = key

/-- What `CKE` and `CKD` write is well formed, and the raw key is recovered from it (70_reset_and_hazards.md R273). -/
def Obligations.CookedKeysAreWellFormed : Prop :=
  ∀ key : List Byte, legalKeyLen key.length →
    WellCookedEnc (cookedEnc key) ∧ rawKeyEnc (cookedEnc key) = key ∧
    WellCookedDec (cookedDec key) ∧ rawKeyDec (cookedDec key) = key

/-- `CKE` completes for a legal, in-range key and an in-range destination (R158): `RESULT` 0, the 241 destination bytes
the encryption cooked key of the key bytes, nothing else written. The two slices may overlap: all reads come before the
write (20_memory.md R58; log 7). -/
def Obligations.CkeWritesEncryptionKey : Prop :=
  ∀ (s : State) (kb koff klen cb coff : Nat),
    kb < s.mem.length → cb < s.mem.length → legalKeyLen klen → inRange s.mem kb koff klen →
    inRange s.mem cb coff 241 →
    ∃ t, exec (.cke kb koff klen cb coff) s = .next t ∧ t.result = 0 ∧ t.tablesReady = true ∧
      t.mem = memWrite s.mem cb coff (cookedEnc (memRead s.mem kb koff klen)) ∧
      t.cw = s.cw ∧ t.received = s.received ∧ t.port = s.port

/-- `CKD` completes likewise (R159; log 7), with the decryption cooked key. -/
def Obligations.CkdWritesDecryptionKey : Prop :=
  ∀ (s : State) (kb koff klen cb coff : Nat),
    kb < s.mem.length → cb < s.mem.length → legalKeyLen klen → inRange s.mem kb koff klen →
    inRange s.mem cb coff 241 →
    ∃ t, exec (.ckd kb koff klen cb coff) s = .next t ∧ t.result = 0 ∧ t.tablesReady = true ∧
      t.mem = memWrite s.mem cb coff (cookedDec (memRead s.mem kb koff klen)) ∧
      t.cw = s.cw ∧ t.received = s.received ∧ t.port = s.port

/-- `CKE.Z` completes for every raw key when the destination is in range (R160): it writes the encryption cooked key of a
legal, in-range key, and 241 zero bytes otherwise, with `RESULT` 0 in both cases. -/
def Obligations.CkeZWritesKeyOrZeros : Prop :=
  ∀ (s : State) (kb koff klen cb coff : Nat),
    kb < s.mem.length → cb < s.mem.length → inRange s.mem cb coff 241 →
    ∃ t, exec (.ckeZ kb koff klen cb coff) s = .next t ∧ t.result = 0 ∧ t.tablesReady = true ∧
      t.mem = memWrite s.mem cb coff
        (if legalKeyLen klen ∧ inRange s.mem kb koff klen then cookedEnc (memRead s.mem kb koff klen)
        else List.replicate 241 0) ∧
      t.cw = s.cw ∧ t.received = s.received ∧ t.port = s.port

/-- `CKD.Z` completes likewise (R161), with the decryption cooked key. -/
def Obligations.CkdZWritesKeyOrZeros : Prop :=
  ∀ (s : State) (kb koff klen cb coff : Nat),
    kb < s.mem.length → cb < s.mem.length → inRange s.mem cb coff 241 →
    ∃ t, exec (.ckdZ kb koff klen cb coff) s = .next t ∧ t.result = 0 ∧ t.tablesReady = true ∧
      t.mem = memWrite s.mem cb coff
        (if legalKeyLen klen ∧ inRange s.mem kb koff klen then cookedDec (memRead s.mem kb koff klen)
        else List.replicate 241 0) ∧
      t.cw = s.cw ∧ t.received = s.received ∧ t.port = s.port

/-- The faults of the validating cook commands, in the order of R246 item 3, each with nothing written: key length, then
raw-key slice, then destination slice. That `TABLES_READY` is 1 after such a fault is the model's own reading (log 6,
DEDUCED). -/
def Obligations.ValidatingCookFaultOrder : Prop :=
  ∀ (mk : Nat → Nat → Nat → Nat → Nat → Instr) (s : State) (kb koff klen cb coff : Nat),
    (mk = Instr.cke ∨ mk = Instr.ckd) → kb < s.mem.length → cb < s.mem.length →
    (¬ legalKeyLen klen → exec (mk kb koff klen cb coff) s = .next (s.begin.faulted .invalidKeySize)) ∧
    (legalKeyLen klen → ¬ inRange s.mem kb koff klen →
      exec (mk kb koff klen cb coff) s = .next (s.begin.faulted .offsetOutOfRange)) ∧
    (legalKeyLen klen → inRange s.mem kb koff klen → ¬ inRange s.mem cb coff 241 →
      exec (mk kb koff klen cb coff) s = .next (s.begin.faulted .offsetOutOfRange))

/-- With handles that name buffers, the compatibility cook commands fault exactly for a destination slice out of range
(R160, R161), and then with `OffsetOutOfRange`; whatever else is wrong they complete. That `TABLES_READY` is 1 after the
fault is the model's own reading (log 6, DEDUCED). -/
def Obligations.CompatCookFaultsOnDestination : Prop :=
  ∀ (mk : Nat → Nat → Nat → Nat → Nat → Instr) (s : State) (kb koff klen cb coff : Nat),
    (mk = Instr.ckeZ ∨ mk = Instr.ckdZ) → kb < s.mem.length → cb < s.mem.length →
    (exec (mk kb koff klen cb coff) s = .next (s.begin.faulted .offsetOutOfRange) ↔ ¬ inRange s.mem cb coff 241) ∧
    ∀ t, exec (mk kb koff klen cb coff) s = .next t → (t.result ≠ 0 ↔ ¬ inRange s.mem cb coff 241)

/-- The zero-filled cooked key, which `CKE.Z` and `CKD.Z` write for a raw key of illegal length or out of range (R160,
R161), can never encrypt or decrypt anything (R278): a block command given it faults with `ScheduleRoundCountMismatch`,
once its slices are in range, and writes nothing. -/
def Obligations.ZeroFilledKeyNeverEncrypts : Prop :=
  ∀ (cookZ : Nat → Nat → Nat → Nat → Nat → Instr) (mk : Nat → Nat → Nat → Nat → Nat → Nat → Instr) (s t : State)
    (kb koff klen cb coff sb soff db doff : Nat),
    (cookZ = Instr.ckeZ ∨ cookZ = Instr.ckdZ) → (mk = Instr.enc ∨ mk = Instr.dec) →
    ¬ (legalKeyLen klen ∧ inRange s.mem kb koff klen) → kb < s.mem.length → cb < s.mem.length →
    inRange s.mem cb coff 241 → exec (cookZ kb koff klen cb coff) s = .next t →
    sb < s.mem.length → db < s.mem.length → inRange s.mem sb soff 16 → inRange s.mem db doff 16 →
    ∃ u, exec (mk cb coff sb soff db doff) t = .next u ∧ u.result = 4 ∧ u.mem = t.mem

/-! ### The Block Transform (42_encrypt.md, 43_decrypt.md) -/

/-- R181, R182, R184, stated byte by byte for row `r` and column `c`: `SubBytes` puts every byte through the S-box,
`ShiftRows` rotates row `r` left by `r`, the two commute, and `AddRoundKey(g)` adds the byte of word `4g + c` and is its
own inverse. -/
def Obligations.RoundStepsByByte : Prop :=
  ∀ (q : Quad) (r c : Nat), r < 4 → c < 4 →
    byteK r ((subBytes q).col c) = sbox (byteK r (q.col c)) ∧
    byteK r ((shiftRows q).col c) = byteK r (q.col ((c + r) % 4)) ∧
    subBytes (shiftRows q) = shiftRows (subBytes q) ∧
    ∀ (w : List Word) (g : Nat),
      byteK r ((addRoundKey w g q).col c) = byteK r (q.col c) ^^^ byteK r (w.getD (4 * g + c) 0) ∧
      addRoundKey w g (addRoundKey w g q) = q

/-- A full round as sixteen T-table lookups is SubBytes, ShiftRows, MixColumns and AddRoundKey (R186). -/
def Obligations.FullRoundIsSingleSteps : Prop :=
  ∀ r : Scratch, (encRound r).s = (mixColumns (shiftRows (subBytes r.s))).xor (r.group r.rnd.toNat)

/-- A full inverse round as sixteen inverse-T-table lookups is InvSubBytes, InvShiftRows, InvMixColumns and AddRoundKey
(R215). -/
def Obligations.FullInverseRoundIsSingleSteps : Prop :=
  ∀ r : Scratch, (decRound r).s = (invMixColumns (invShiftRows (invSubBytes r.s))).xor (r.group r.rnd.toNat)

/-- The inverse transformations undo the forward ones, and are undone by them (R211 to R213). -/
def Obligations.InverseStepsUndoSteps : Prop :=
  ∀ q : Quad,
    invSubBytes (subBytes q) = q ∧ subBytes (invSubBytes q) = q ∧
    invShiftRows (shiftRows q) = q ∧ shiftRows (invShiftRows q) = q ∧
    invMixColumns (mixColumns q) = q ∧ mixColumns (invMixColumns q) = q

/-- `InvMixColumnWord` is linear over exclusive-or, and is the XOR of four inverse-T-table reads behind the S-box
(41_key_schedule.md R154). -/
def Obligations.InvMixColumnWordFromTables : Prop :=
  (∀ u v : Word, invMixColumnWord (u ^^^ v) = invMixColumnWord u ^^^ invMixColumnWord v) ∧
  ∀ w : Word, invMixColumnWord w =
    td0 (sbox (byteK 0 w)) ^^^ td1 (sbox (byteK 1 w)) ^^^ td2 (sbox (byteK 2 w)) ^^^ td3 (sbox (byteK 3 w))

/-- `ENC` completes when its slices are in range and byte 240 of the cooked key is 10, 12 or 14 (R189): `RESULT` 0, and
the 16 destination bytes are the single-step encryption (R185) of the 16 source bytes under the words of the cooked key;
nothing else is written. For a cooked key that is not well formed, and for a destination over the cooked key, this is
what the rules compute; the source promises nothing there (90_conflicts.md C3, C10; log 7). -/
def Obligations.EncWritesEncryptedBlock : Prop :=
  ∀ (s : State) (cb coff sb soff db doff : Nat),
    cb < s.mem.length → sb < s.mem.length → db < s.mem.length → inRange s.mem cb coff 241 →
    inRange s.mem sb soff 16 → inRange s.mem db doff 16 → legalNr ((memRead s.mem cb coff 241).getD 240 0) →
    ∃ t, exec (.enc cb coff sb soff db doff) s = .next t ∧ t.result = 0 ∧ t.tablesReady = true ∧
      t.mem = memWrite s.mem db doff
        (encryptBytes (memRead s.mem cb coff 241) (memRead s.mem sb soff 16)) ∧
      t.cw = s.cw ∧ t.received = s.received ∧ t.port = s.port

/-- `DEC` completes under the same conditions (R218), with the single-step decryption (R214); log 7 applies likewise. -/
def Obligations.DecWritesDecryptedBlock : Prop :=
  ∀ (s : State) (cb coff sb soff db doff : Nat),
    cb < s.mem.length → sb < s.mem.length → db < s.mem.length → inRange s.mem cb coff 241 →
    inRange s.mem sb soff 16 → inRange s.mem db doff 16 → legalNr ((memRead s.mem cb coff 241).getD 240 0) →
    ∃ t, exec (.dec cb coff sb soff db doff) s = .next t ∧ t.result = 0 ∧ t.tablesReady = true ∧
      t.mem = memWrite s.mem db doff
        (decryptBytes (memRead s.mem cb coff 241) (memRead s.mem sb soff 16)) ∧
      t.cw = s.cw ∧ t.received = s.received ∧ t.port = s.port

/-- The bounds faults of the block commands, in the order of R246 item 4, each with nothing written: cooked-key slice;
source offset past the capacity, then source slice short; destination offset past the capacity, then destination slice
short (60_exceptions.md R242). That `TABLES_READY` is 1 after such a fault is the model's own reading (log 6, DEDUCED).
-/
def Obligations.BlockFaultOrder : Prop :=
  ∀ (mk : Nat → Nat → Nat → Nat → Nat → Nat → Instr) (s : State) (cb coff sb soff db doff : Nat),
    (mk = Instr.enc ∨ mk = Instr.dec) → cb < s.mem.length → sb < s.mem.length → db < s.mem.length →
    (s.mem.cap cb < coff + 241 →
      exec (mk cb coff sb soff db doff) s = .next (s.begin.faulted .offsetOutOfRange)) ∧
    (coff + 241 ≤ s.mem.cap cb → s.mem.cap sb < soff →
      exec (mk cb coff sb soff db doff) s = .next (s.begin.faulted .offsetOutOfRange)) ∧
    (coff + 241 ≤ s.mem.cap cb → soff ≤ s.mem.cap sb → s.mem.cap sb < soff + 16 →
      exec (mk cb coff sb soff db doff) s = .next (s.begin.faulted .invalidBlockLength)) ∧
    (coff + 241 ≤ s.mem.cap cb → soff + 16 ≤ s.mem.cap sb → s.mem.cap db < doff →
      exec (mk cb coff sb soff db doff) s = .next (s.begin.faulted .offsetOutOfRange)) ∧
    (coff + 241 ≤ s.mem.cap cb → soff + 16 ≤ s.mem.cap sb → doff ≤ s.mem.cap db → s.mem.cap db < doff + 16 →
      exec (mk cb coff sb soff db doff) s = .next (s.begin.faulted .invalidBlockLength))

/-- R243: after all bounds checks, a round-count byte other than 10, 12 or 14 faults with
`ScheduleRoundCountMismatch`, and nothing is written. That `TABLES_READY` is 1 after it is the model's own reading (log
6, DEDUCED). -/
def Obligations.RoundCountMismatchFaults : Prop :=
  ∀ (mk : Nat → Nat → Nat → Nat → Nat → Nat → Instr) (s : State) (cb coff sb soff db doff : Nat),
    (mk = Instr.enc ∨ mk = Instr.dec) → cb < s.mem.length → sb < s.mem.length → db < s.mem.length →
    inRange s.mem cb coff 241 → inRange s.mem sb soff 16 → inRange s.mem db doff 16 →
    (exec (mk cb coff sb soff db doff) s = .next (s.begin.faulted .scheduleRoundCountMismatch) ↔
      ¬ legalNr ((memRead s.mem cb coff 241).getD 240 0))

/-- The unused tail of a cooked key is ignored (R188, R189 corner case (e)): two cooked keys that agree on byte 240 and
on the first `16 * (Nr + 1)` bytes encrypt and decrypt alike. -/
def Obligations.UnusedTailIsIgnored : Prop :=
  ∀ ck ck' block : List Byte, ck.getD 240 0 = ck'.getD 240 0 →
    (∀ j, j < 16 * (cookedNr ck + 1) → ck.getD j 0 = ck'.getD j 0) →
    encryptBytes ck block = encryptBytes ck' block ∧ decryptBytes ck block = decryptBytes ck' block

/-- R219: for every legal key and every 16-byte block, decryption under the decryption cooked key undoes encryption under
the encryption cooked key, and the other way round. -/
def Obligations.DecryptUndoesEncrypt : Prop :=
  ∀ key block : List Byte, legalKeyLen key.length → block.length = 16 →
    decryptBytes (cookedDec key) (encryptBytes (cookedEnc key) block) = block ∧
    encryptBytes (cookedEnc key) (decryptBytes (cookedDec key) block) = block

/-- For a well-formed encryption cooked key, encryption is a bijection on 16-byte blocks (R190 item 2). -/
def Obligations.EncryptionIsBijective : Prop :=
  ∀ ck : List Byte, WellCookedEnc ck →
    ∀ c : List Byte, c.length = 16 → ∃! p : List Byte, p.length = 16 ∧ encryptBytes ck p = c

/-- R219 for the commands: cook a legal key in both orientations (with the validating or the compatibility commands),
encrypt a block and decrypt what was written: the block comes back; and the other way round. The encryption
cooked key is kept off the raw key (which the decryption cook reads again), both cooked keys off the source block, the
block between and each other (70_reset_and_hazards.md R274, R275). The decryption cooked key may lie over the raw key,
and the final block over either cooked key: there the statement says what the rules compute, where the source promises
nothing (log 7). -/
def Obligations.CommandRoundTrip : Prop :=
  ∀ (cookE cookD : Nat → Nat → Nat → Nat → Nat → Instr) (s : State)
    (kb koff klen eb eoff db doff sb soff cb coff ob ooff : Nat),
    (cookE = Instr.cke ∨ cookE = Instr.ckeZ) → (cookD = Instr.ckd ∨ cookD = Instr.ckdZ) →
    (∀ h ∈ [kb, eb, db, sb, cb, ob], h < s.mem.length) → legalKeyLen klen →
    inRange s.mem kb koff klen → inRange s.mem eb eoff 241 → inRange s.mem db doff 241 →
    inRange s.mem sb soff 16 → inRange s.mem cb coff 16 → inRange s.mem ob ooff 16 →
    DisjointSlices kb koff klen eb eoff 241 → DisjointSlices eb eoff 241 db doff 241 →
    DisjointSlices sb soff 16 eb eoff 241 → DisjointSlices sb soff 16 db doff 241 →
    DisjointSlices eb eoff 241 cb coff 16 → DisjointSlices db doff 241 cb coff 16 →
    ∃ t u, exec (cookE kb koff klen eb eoff) s = .next t ∧ exec (cookD kb koff klen db doff) t = .next u ∧
      (∃ v w, exec (.enc eb eoff sb soff cb coff) u = .next v ∧ exec (.dec db doff cb coff ob ooff) v = .next w ∧
        w.result = 0 ∧ memRead w.mem ob ooff 16 = memRead s.mem sb soff 16) ∧
      ∃ v w, exec (.dec db doff sb soff cb coff) u = .next v ∧ exec (.enc eb eoff cb coff ob ooff) v = .next w ∧
        w.result = 0 ∧ memRead w.mem ob ooff 16 = memRead s.mem sb soff 16
end

