-- ==== Sys2Proof/Laws/Bytes.lean ====
section
/-! SUPPORT. Bytes of a word (00_scope.md R9): taking a word apart and building it again, and how both commute with
exclusive-or; the columns of a block (R13). -/

namespace Sys2Proof.Machine

@[simp] theorem byteK_zero_word (a b c d : Byte) : byteK 0 (word a b c d) = a := by
  ext i hi
  interval_cases i <;> simp [byteK, word]

@[simp] theorem byteK_one_word (a b c d : Byte) : byteK 1 (word a b c d) = b := by
  ext i hi
  interval_cases i <;> simp [byteK, word]

@[simp] theorem byteK_two_word (a b c d : Byte) : byteK 2 (word a b c d) = c := by
  ext i hi
  interval_cases i <;> simp [byteK, word]

@[simp] theorem byteK_three_word (a b c d : Byte) : byteK 3 (word a b c d) = d := by
  ext i hi
  interval_cases i <;> simp [byteK, word]

/-- A word is built of its four bytes. -/
@[simp] theorem word_byteK (w : Word) : word (byteK 0 w) (byteK 1 w) (byteK 2 w) (byteK 3 w) = w := by
  ext i hi
  interval_cases i <;> simp [byteK, word]

/-- Two words with the same four bytes are equal. -/
theorem word_ext {u v : Word} (h0 : byteK 0 u = byteK 0 v) (h1 : byteK 1 u = byteK 1 v)
    (h2 : byteK 2 u = byteK 2 v) (h3 : byteK 3 u = byteK 3 v) : u = v := by
  rw [← word_byteK u, ← word_byteK v, h0, h1, h2, h3]

theorem byteK_xor (k : Nat) (u v : Word) : byteK k (u ^^^ v) = byteK k u ^^^ byteK k v := by
  ext i hi
  simp [byteK]

theorem word_xor (a b c d a' b' c' d' : Byte) :
    word (a ^^^ a') (b ^^^ b') (c ^^^ c') (d ^^^ d') = word a b c d ^^^ word a' b' c' d' := by
  apply word_ext <;> simp [byteK_xor]

/-- A rotation right by a byte moves the last byte to the front (40_tables.md R119). -/
theorem rotateRight_eight_word (a b c d : Byte) : (word a b c d).rotateRight 8 = word d a b c := by
  ext i hi
  interval_cases i <;> simp [word, BitVec.getElem_rotateRight]

theorem rotateRight_sixteen_word (a b c d : Byte) : (word a b c d).rotateRight 16 = word c d a b := by
  ext i hi
  interval_cases i <;> simp [word, BitVec.getElem_rotateRight]

theorem rotateRight_twentyfour_word (a b c d : Byte) : (word a b c d).rotateRight 24 = word b c d a := by
  ext i hi
  interval_cases i <;> simp [word, BitVec.getElem_rotateRight]

/-- The bytes form of `RotWord` (41_key_schedule.md R152). -/
theorem rotWord_word (a b c d : Byte) : rotWord (word a b c d) = word b c d a := by
  ext i hi
  interval_cases i <;> simp [rotWord, word, BitVec.getElem_rotateLeft]

@[simp] theorem wordBytes_length (w : Word) : (wordBytes w).length = 4 := rfl

/-- The big-endian word at the front of a byte sequence that begins with a word's bytes (20_memory.md R54). -/
@[simp] theorem be32_wordBytes_append (w : Word) (m : List Byte) : be32 (wordBytes w ++ m) 0 = w := by
  simp [be32, wordBytes]

/-- Skipping one word's bytes. -/
@[simp] theorem be32_wordBytes_append_add (w : Word) (m : List Byte) (a : Nat) :
    be32 (wordBytes w ++ m) (a + 4) = be32 m a := by
  simp [be32, wordBytes, show ∀ k, a + 4 + k = (a + k) + 4 by omega]

/-- Word `i` of the bytes of a list of words is word `i`. -/
theorem be32_flatMap_wordBytes (ws : List Word) (m : List Byte) (i : Nat) (h : i < ws.length) :
    be32 (ws.flatMap wordBytes ++ m) (4 * i) = ws.getD i 0 := by
  induction ws generalizing i with
  | nil => simp at h
  | cons w ws ih =>
    cases i with
    | zero => simp
    | succ i =>
      have : 4 * (i + 1) = 4 * i + 4 := by omega
      simp only [List.flatMap_cons, List.append_assoc, this, be32_wordBytes_append_add, List.getD_cons_succ]
      exact ih i (by simpa using h)

@[simp] theorem flatMap_wordBytes_length (ws : List Word) : (ws.flatMap wordBytes).length = 4 * ws.length := by
  induction ws with
  | nil => rfl
  | cons w ws ih => simp [ih]; omega

/-- The four bytes of `be32` are the four bytes it was read from. -/
theorem wordBytes_be32 (m : List Byte) (a : Nat) :
    wordBytes (be32 m a) = [m.getD a 0, m.getD (a + 1) 0, m.getD (a + 2) 0, m.getD (a + 3) 0] := by
  simp [wordBytes, be32]

@[simp] theorem quad_bytes_length (q : Quad) : q.bytes.length = 16 := rfl

/-- Loading the bytes that were stored gives the columns back (42_encrypt.md R188). -/
@[simp] theorem quad_ofBytes_bytes (q : Quad) : Quad.ofBytes q.bytes = q := by
  cases q
  simp [Quad.ofBytes, Quad.bytes, be32, wordBytes]

/-- Storing the columns loaded from a 16-byte block gives the block back. -/
theorem quad_bytes_ofBytes (m : List Byte) (h : m.length = 16) : (Quad.ofBytes m).bytes = m := by
  apply List.ext_getElem
  · simp [h]
  · intro i h1 h2
    simp only [Quad.ofBytes, Quad.bytes, wordBytes_be32]
    simp only [quad_bytes_length] at h1
    interval_cases i <;> simp [h]

@[simp] theorem quad_xor_self_right (p q : Quad) : (p.xor q).xor q = p := by
  simp [Quad.xor]

@[simp] theorem quad_col_zero (q : Quad) : q.col 0 = q.w0 := rfl
@[simp] theorem quad_col_one (q : Quad) : q.col 1 = q.w1 := rfl
@[simp] theorem quad_col_two (q : Quad) : q.col 2 = q.w2 := rfl
@[simp] theorem quad_col_three (q : Quad) : q.col 3 = q.w3 := rfl

/-- Columns are numbered modulo 4. -/
@[simp] theorem quad_col_add_four (q : Quad) (c : Nat) : q.col (c + 4) = q.col c := by
  simp [Quad.col]

end Sys2Proof.Machine
end

