-- ==== Sys2Proof/Laws/Memory.lean ====
section
/-! SUPPORT. The buffers (20_memory.md): what a read gives after a write, what a write leaves alone, and that every
memory operation keeps the canonical form and the shape. -/

namespace Sys2Proof.Machine

/-! ### Lists of cells -/

theorem cellAt_of_not_mem {cells : List Host.Cell} {x : Nat} (h : ∀ c ∈ cells, c.1 ≠ x) :
    cellAt cells x = Config.unlisted := by
  induction cells with
  | nil => rfl
  | cons c cs ih => simp_all [cellAt]

theorem cellAt_append_left {l r : List Host.Cell} {x : Nat} (h : ∀ c ∈ r, c.1 ≠ x) :
    cellAt (l ++ r) x = cellAt l x := by
  induction l with
  | nil => exact cellAt_of_not_mem h
  | cons c cs ih => simp [cellAt, ih]

theorem cellAt_append_right {l r : List Host.Cell} {x : Nat} (h : ∀ c ∈ l, c.1 ≠ x) :
    cellAt (l ++ r) x = cellAt r x := by
  induction l with
  | nil => rfl
  | cons c cs ih => simp_all [cellAt]

theorem cellAt_filter {cells : List Host.Cell} {x : Nat} (p : Nat → Bool) (h : p x = true) :
    cellAt (cells.filter fun c => p c.1) x = cellAt cells x := by
  induction cells with
  | nil => rfl
  | cons c cs ih =>
    by_cases hc : c.1 = x
    · simp [cellAt, hc, h]
    · by_cases hp : p c.1 = true
      · simp [hp, cellAt, hc, ih]
      · simp [hp, cellAt, hc, ih]

theorem listed_bounds {a : Nat} {vs : List Byte} {c : Host.Cell} (h : c ∈ listed a vs) :
    a ≤ c.1 ∧ c.1 < a + vs.length ∧ c.2 ≠ Config.unlisted := by
  induction vs generalizing a with
  | nil => simp [listed] at h
  | cons v vs ih =>
    simp only [listed] at h
    split at h
    · obtain ⟨h1, h2, h3⟩ := ih h
      exact ⟨by omega, by simp only [List.length_cons]; omega, h3⟩
    · rcases List.mem_cons.1 h with rfl | h
      · simp_all
      · obtain ⟨h1, h2, h3⟩ := ih h
        exact ⟨by omega, by simp only [List.length_cons]; omega, h3⟩

theorem listed_pairwise (a : Nat) (vs : List Byte) : (listed a vs).Pairwise fun x y => x.1 < y.1 := by
  induction vs generalizing a with
  | nil => exact List.Pairwise.nil
  | cons v vs ih =>
    simp only [listed]
    split
    · exact ih _
    · refine List.Pairwise.cons (fun c hc => ?_) (ih _)
      have := listed_bounds hc
      show a < c.1
      omega

theorem cellAt_listed (a : Nat) (vs : List Byte) (j : Nat) (h : j < vs.length) :
    cellAt (listed a vs) (a + j) = vs[j] := by
  induction vs generalizing a j with
  | nil => simp at h
  | cons v vs ih =>
    cases j with
    | zero =>
      simp only [listed]
      split
      · rename_i hv
        rw [cellAt_of_not_mem (fun c hc => by have := listed_bounds hc; omega)]
        simp [hv]
      · simp [cellAt]
    | succ j =>
      have hj : j < vs.length := by simpa using h
      have e : a + (j + 1) = a + 1 + j := by omega
      have := ih (a + 1) j hj
      simp only [listed]
      split
      · simpa [e] using this
      · simpa [cellAt, e, show ¬ (a = a + 1 + j) by omega] using this

/-- Every byte after a write: the written one inside the window, the old one outside. -/
theorem cellAt_overwrite (cells : List Host.Cell) (a : Nat) (vs : List Byte) (x : Nat) :
    cellAt (overwrite cells a vs) x =
      if h : a ≤ x ∧ x < a + vs.length then vs[x - a]'(by omega) else cellAt cells x := by
  have hl : ∀ c ∈ cells.filter (fun c => decide (c.1 < a)), c.1 < a := by simp
  have hr : ∀ c ∈ cells.filter (fun c => decide (a + vs.length ≤ c.1)), a + vs.length ≤ c.1 := by simp
  unfold overwrite
  split
  · rename_i h
    rw [cellAt_append_left (fun c hc => by have := hr c hc; omega),
      cellAt_append_right (fun c hc => by have := hl c hc; omega)]
    have := cellAt_listed a vs (x - a) (by omega)
    simpa [show a + (x - a) = x by omega] using this
  · rename_i h
    by_cases hx : x < a
    · rw [cellAt_append_left (fun c hc => by have := hr c hc; omega),
        cellAt_append_left (fun c hc => by have := listed_bounds hc; omega)]
      exact cellAt_filter (fun y => decide (y < a)) (by simpa using hx)
    · rw [cellAt_append_right (fun c hc => by
        rcases List.mem_append.1 hc with hc | hc
        · have := hl c hc; omega
        · have := listed_bounds hc; omega)]
      exact cellAt_filter (fun y => decide (a + vs.length ≤ y)) (by simp; omega)

/-- A write inside the capacity keeps a buffer's canonical form. -/
theorem overwrite_wf {buf : Buffer} {a : Nat} {vs : List Byte} (h : buf.wf) (hr : a + vs.length ≤ buf.cap) :
    Buffer.wf { buf with cells := overwrite buf.cells a vs } := by
  obtain ⟨hp, hc⟩ := h
  have hl : ∀ c ∈ buf.cells.filter (fun c => decide (c.1 < a)), c.1 < a := by simp
  have hg : ∀ c ∈ buf.cells.filter (fun c => decide (a + vs.length ≤ c.1)), a + vs.length ≤ c.1 := by simp
  constructor
  · show (overwrite buf.cells a vs).Pairwise _
    unfold overwrite
    refine List.pairwise_append.2 ⟨List.pairwise_append.2 ⟨hp.filter _, listed_pairwise a vs, ?_⟩, hp.filter _, ?_⟩
    · intro x hx y hy
      have := hl x hx; have := listed_bounds hy; omega
    · intro x hx y hy
      have := hg y hy
      rcases List.mem_append.1 hx with hx | hx
      · have := hl x hx; omega
      · have := listed_bounds hx; omega
  · intro c hm
    simp only [overwrite, List.mem_append] at hm
    rcases hm with (hm | hm) | hm
    · exact hc c (List.mem_filter.1 hm).1
    · have := listed_bounds hm
      exact ⟨by show c.1 < buf.cap; omega, this.2.2⟩
    · exact hc c (List.mem_filter.1 hm).1

/-! ### The memory -/

@[simp] theorem memRead_length (m : Memory) (b a n : Nat) : (memRead m b a n).length = n := by
  simp [memRead]

theorem memRead_getD (m : Memory) (b a n j : Nat) (h : j < n) :
    (memRead m b a n).getD j 0 = (m.byte? b (a + j)).getD Config.unlisted := by
  simp [memRead, h]

/-- A byte exists exactly when its buffer does and its offset is below the capacity (R50). -/
theorem byte?_isSome_iff (m : Memory) (b a : Nat) : (m.byte? b a).isSome ↔ b < m.length ∧ a < m.cap b := by
  unfold Memory.byte? Memory.cap
  cases h : m[b]? with
  | none => simp
  | some buf =>
    obtain ⟨hb, -⟩ := List.getElem?_eq_some_iff.1 h
    by_cases ha : a < buf.cap <;> simp [ha, hb]

@[simp] theorem memWrite_length (m : Memory) (b a : Nat) (vs : List Byte) : (memWrite m b a vs).length = m.length := by
  simp [memWrite]

/-- A write changes no capacity (R50). -/
@[simp] theorem memWrite_cap (m : Memory) (b a : Nat) (vs : List Byte) (b' : Nat) :
    (memWrite m b a vs).cap b' = m.cap b' := by
  unfold Memory.cap memWrite
  rw [List.getElem?_modify]
  cases h : m[b']? with
  | none => simp
  | some buf => by_cases hb : b = b' <;> simp [hb]

/-- A write changes neither `NBUF` nor any capacity (R50). -/
@[simp] theorem memWrite_shape (m : Memory) (b a : Nat) (vs : List Byte) :
    Memory.shape (memWrite m b a vs) = Memory.shape m := by
  unfold Memory.shape memWrite
  apply List.ext_getElem
  · simp
  · intro i h1 h2
    simp only [List.getElem_map, List.getElem_modify]
    split <;> rfl

/-- Every byte after a write (R57): the written one inside the window, the old one everywhere else. -/
theorem memWrite_byte? (m : Memory) (b a : Nat) (vs : List Byte) (b' x : Nat) :
    (memWrite m b a vs).byte? b' x =
      if h : b' = b ∧ a ≤ x ∧ x < a + vs.length then (m.byte? b' x).map fun _ => vs[x - a]'(by omega)
      else m.byte? b' x := by
  unfold Memory.byte? memWrite
  rw [List.getElem?_modify]
  cases hm : m[b']? with
  | none => simp
  | some buf =>
    by_cases hb : b = b'
    · subst hb
      by_cases hx : x < buf.cap
      · by_cases hw : a ≤ x ∧ x < a + vs.length
        · simp [hx, hw, cellAt_overwrite]
        · simp [hx, hw, cellAt_overwrite]
      · simp [hx]
    · simp [hb, Ne.symm hb]

/-- Outside the window every byte reads as before (R57). -/
theorem memWrite_byte?_outside (m : Memory) {b a : Nat} {vs : List Byte} {b' x : Nat}
    (h : ¬ (b' = b ∧ a ≤ x ∧ x < a + vs.length)) : (memWrite m b a vs).byte? b' x = m.byte? b' x := by
  rw [memWrite_byte?, dif_neg h]

/-- Reading back what was written to an in-range slice (R56, R57). -/
theorem memRead_memWrite_same (m : Memory) {b a : Nat} {vs : List Byte} (hb : b < m.length)
    (hr : inRange m b a vs.length) : memRead (memWrite m b a vs) b a vs.length = vs := by
  apply List.ext_getElem
  · simp
  · intro j h1 h2
    have hs : (m.byte? b (a + j)).isSome :=
      (byte?_isSome_iff m b (a + j)).2 ⟨hb, by unfold inRange at hr; omega⟩
    obtain ⟨v, hv⟩ := Option.isSome_iff_exists.1 hs
    simp [memRead, memWrite_byte?, hv, h2]

/-- Reading a slice that shares no byte with the window of a write (R57). -/
theorem memRead_memWrite_disjoint (m : Memory) {b a : Nat} {vs : List Byte} {b' a' n : Nat}
    (h : DisjointSlices b' a' n b a vs.length) : memRead (memWrite m b a vs) b' a' n = memRead m b' a' n := by
  unfold memRead
  apply List.map_congr_left
  intro j hj
  have hj : j < n := List.mem_range.1 hj
  rw [memWrite_byte?_outside]
  rintro ⟨rfl, h1, h2⟩
  rcases h with h | h | h
  · exact h rfl
  · omega
  · omega

/-- An in-range write keeps the canonical form of the memory. -/
theorem memWrite_wf {m : Memory} {b a : Nat} {vs : List Byte} (h : m.wf) (hr : inRange m b a vs.length) :
    (memWrite m b a vs).wf := by
  intro buf hbuf
  obtain ⟨i, hi, rfl⟩ := List.getElem_of_mem hbuf
  have hi' : i < m.length := by simpa [memWrite] using hi
  simp only [memWrite, List.getElem_modify]
  split
  · rename_i hb
    subst hb
    refine overwrite_wf (h _ (List.getElem_mem hi')) ?_
    simpa [inRange, Memory.cap, List.getElem?_eq_getElem hi'] using hr
  · exact h _ (List.getElem_mem hi')

/-- The reset memory has the canonical form. -/
theorem reset_mem_wf : Memory.wf State.reset.mem := by
  intro buf h
  obtain ⟨c, -, rfl⟩ := List.mem_map.1 h
  exact ⟨List.Pairwise.nil, by simp⟩

end Sys2Proof.Machine
end

