-- ==== Sys2Proof/Laws/State.lean ====
section
/-! SUPPORT. The fields of a state after each named update: one lemma a field, true by `rfl`. -/

namespace Sys2Proof.Machine

/-! ### A command begins -/

@[simp] theorem begin_mem (s : State) : s.begin.mem = s.mem := rfl
@[simp] theorem begin_result (s : State) : s.begin.result = s.result := rfl
@[simp] theorem begin_tablesReady (s : State) : s.begin.tablesReady = true := rfl
@[simp] theorem begin_scratch (s : State) : s.begin.scratch = Scratch.free s.draws := rfl
@[simp] theorem begin_cw (s : State) : s.begin.cw = s.cw := rfl
@[simp] theorem begin_received (s : State) : s.begin.received = s.received := rfl
@[simp] theorem begin_port (s : State) : s.begin.port = s.port := rfl
@[simp] theorem begin_draws (s : State) : s.begin.draws = s.draws + 1 := rfl

/-! ### A command faults -/

@[simp] theorem faulted_mem (f : FaultCode) (s : State) : (s.faulted f).mem = s.mem := rfl
@[simp] theorem faulted_result (f : FaultCode) (s : State) : (s.faulted f).result = f.code := rfl
@[simp] theorem faulted_tablesReady (f : FaultCode) (s : State) : (s.faulted f).tablesReady = s.tablesReady := rfl
@[simp] theorem faulted_scratch (f : FaultCode) (s : State) : (s.faulted f).scratch = Scratch.free s.draws := rfl
@[simp] theorem faulted_cw (f : FaultCode) (s : State) : (s.faulted f).cw = s.cw := rfl
@[simp] theorem faulted_received (f : FaultCode) (s : State) : (s.faulted f).received = s.received := rfl
@[simp] theorem faulted_port (f : FaultCode) (s : State) : (s.faulted f).port = s.port := rfl
@[simp] theorem faulted_draws (f : FaultCode) (s : State) : (s.faulted f).draws = s.draws + 1 := rfl

/-- Every fault shows a code from 1 to 5 (60_exceptions.md R240). -/
theorem code_range (f : FaultCode) : 1 ≤ f.code.toNat ∧ f.code.toNat ≤ 5 := by
  cases f <;> decide

/-- A fault never shows the completed code. -/
theorem code_ne_done (f : FaultCode) : f.code ≠ resultDone := by
  cases f <;> decide

/-! ### A command completes -/

@[simp] theorem completed_mem (s : State) : s.completed.mem = s.mem := rfl
@[simp] theorem completed_result (s : State) : s.completed.result = resultDone := rfl
@[simp] theorem completed_tablesReady (s : State) : s.completed.tablesReady = s.tablesReady := rfl
@[simp] theorem completed_scratch (s : State) : s.completed.scratch = s.scratch := rfl
@[simp] theorem completed_cw (s : State) : s.completed.cw = s.cw := rfl
@[simp] theorem completed_received (s : State) : s.completed.received = s.received := rfl
@[simp] theorem completed_port (s : State) : s.completed.port = s.port := rfl
@[simp] theorem completed_draws (s : State) : s.completed.draws = s.draws := rfl

/-! ### The HOST resets the CORE -/

@[simp] theorem hostReset_mem (s : State) : (hostReset s).mem = s.mem := rfl
@[simp] theorem hostReset_result (s : State) : (hostReset s).result = 0 := rfl
@[simp] theorem hostReset_tablesReady (s : State) : (hostReset s).tablesReady = false := rfl
@[simp] theorem hostReset_scratch (s : State) : (hostReset s).scratch = Scratch.free s.draws := rfl
@[simp] theorem hostReset_cw (s : State) : (hostReset s).cw = s.cw := rfl
@[simp] theorem hostReset_received (s : State) : (hostReset s).received = 0 := rfl
@[simp] theorem hostReset_port (s : State) : (hostReset s).port = s.port := rfl
@[simp] theorem hostReset_draws (s : State) : (hostReset s).draws = s.draws + 1 := rfl

/-! ### The scratch registers -/

@[simp] theorem setI_rk (r : Scratch) (n : Nat) : (r.setI n).rk = r.rk := rfl
@[simp] theorem setI_nr (r : Scratch) (n : Nat) : (r.setI n).nr = r.nr := rfl
@[simp] theorem setI_nk (r : Scratch) (n : Nat) : (r.setI n).nk = r.nk := rfl
@[simp] theorem setI_rkAt (r : Scratch) (n j : Nat) : (r.setI n).rkAt j = r.rkAt j := rfl
@[simp] theorem setI_i (r : Scratch) (n : Nat) : (r.setI n).i = BitVec.ofNat 6 n := rfl

/-- `I` never wraps: it holds what it is set to up to 63 (10_state.md R35). -/
theorem setI_i_toNat (r : Scratch) {n : Nat} (h : n < 64) : (r.setI n).i.toNat = n := by
  simp [Nat.mod_eq_of_lt h]

@[simp] theorem setRk_nr (r : Scratch) (j : Nat) (w : Word) : (r.setRk j w).nr = r.nr := rfl
@[simp] theorem setRk_nk (r : Scratch) (j : Nat) (w : Word) : (r.setRk j w).nk = r.nk := rfl
@[simp] theorem setRk_i (r : Scratch) (j : Nat) (w : Word) : (r.setRk j w).i = r.i := rfl
@[simp] theorem setRk_tmp (r : Scratch) (j : Nat) (w : Word) : (r.setRk j w).tmp = r.tmp := rfl

/-- Reading a round-key word after one was written (R24). -/
theorem setRk_rkAt (r : Scratch) {j : Nat} (w : Word) (k : Nat) (h : j < 60) :
    (r.setRk j w).rkAt k = if k = j then w else r.rkAt k := by
  unfold Scratch.rkAt Scratch.setRk
  simp only [Vector.getElem?_setIfInBounds]
  by_cases hk : k = j
  · subst hk; simp [h]
  · simp [hk, Ne.symm hk]

@[simp] theorem setRnd_s (r : Scratch) (n : Nat) : (r.setRnd n).s = r.s := rfl
@[simp] theorem setRnd_rk (r : Scratch) (n : Nat) : (r.setRnd n).rk = r.rk := rfl
@[simp] theorem setRnd_nr (r : Scratch) (n : Nat) : (r.setRnd n).nr = r.nr := rfl
@[simp] theorem setRnd_group (r : Scratch) (n g : Nat) : (r.setRnd n).group g = r.group g := rfl
@[simp] theorem setRnd_rnd (r : Scratch) (n : Nat) : (r.setRnd n).rnd = BitVec.ofNat 4 n := rfl

/-- `RND` never wraps: it holds what it is set to up to 15 (10_state.md R34). -/
theorem setRnd_rnd_toNat (r : Scratch) {n : Nat} (h : n < 16) : (r.setRnd n).rnd.toNat = n := by
  simp [Nat.mod_eq_of_lt h]

@[simp] theorem copyT_s (r : Scratch) : (copyT r).s = r.t := rfl
@[simp] theorem copyT_rk (r : Scratch) : (copyT r).rk = r.rk := rfl
@[simp] theorem copyT_nr (r : Scratch) : (copyT r).nr = r.nr := rfl

@[simp] theorem loadNr_nr (ck : List Byte) (r : Scratch) : (loadNr ck r).nr = ck.getD Config.ckNrOffset 0 := rfl
@[simp] theorem loadRk_nr (ck : List Byte) (r : Scratch) : (loadRk ck r).nr = r.nr := by unfold loadRk; rfl
@[simp] theorem loadS_s (block : List Byte) (r : Scratch) : (loadS block r).s = Quad.ofBytes block := rfl
@[simp] theorem loadS_rk (block : List Byte) (r : Scratch) : (loadS block r).rk = r.rk := rfl
@[simp] theorem loadS_nr (block : List Byte) (r : Scratch) : (loadS block r).nr = r.nr := rfl
@[simp] theorem addRoundKeyS_s (g : Nat) (r : Scratch) : (addRoundKeyS g r).s = r.s.xor (r.group g) := rfl
@[simp] theorem addRoundKeyS_rk (g : Nat) (r : Scratch) : (addRoundKeyS g r).rk = r.rk := rfl
@[simp] theorem addRoundKeyS_nr (g : Nat) (r : Scratch) : (addRoundKeyS g r).nr = r.nr := rfl

/-- The round-key words after `ENC` and `DEC` load them (42_encrypt.md R188). -/
theorem loadRk_rkAt (ck : List Byte) (r : Scratch) {j : Nat} (h : j < 60) :
    (loadRk ck r).rkAt j = if j < scheduleWords r.nr.toNat then be32 ck (4 * j) else r.rkAt j := by
  unfold loadRk Scratch.rkAt
  simp only [Vector.getElem?_ofFn]
  simp [h]

/-- The round-key words after a cook command loads its raw key (41_key_schedule.md R151). -/
theorem loadKey_rkAt (key : List Byte) (r : Scratch) {j : Nat} (h : j < 60) :
    (loadKey key r).rkAt j = if j < key.length / 4 then be32 key (4 * j) else r.rkAt j := by
  unfold loadKey Scratch.rkAt
  simp only [Vector.getElem?_ofFn]
  simp [h]

end Sys2Proof.Machine
end

