-- ==== Sys2Proof/Laws/Commands.lean ====
section
/-! SUPPORT. What each shared command body can do: one lemma for each way it can end, and one inversion lemma that says
all of them, for every command. -/

namespace Sys2Proof.Machine

@[simp] theorem ckb_toList_length (r : Scratch) : r.ckb.toList.length = 241 := by simp

/-! ### Handles -/

theorem badHandle_eq_true_iff (m : Memory) (hs : List Nat) : badHandle m hs = true ↔ ∃ h ∈ hs, m.length ≤ h := by
  simp [badHandle]

theorem badHandle_eq_false_iff (m : Memory) (hs : List Nat) : badHandle m hs = false ↔ ∀ h ∈ hs, h < m.length := by
  simp [badHandle]

/-! ### The checks -/

theorem cookFault_eq_none_iff (m : Memory) (kb koff klen cb coff : Nat) :
    cookFault m kb koff klen cb coff = none ↔
      legalKeyLen klen ∧ inRange m kb koff klen ∧ inRange m cb coff Config.ckBytes := by
  unfold cookFault inRange legalKeyLen
  repeat' split
  all_goals simp only [reduceCtorEq, true_iff, false_iff]
  all_goals omega

theorem cookZFault_eq_none_iff (m : Memory) (cb coff : Nat) :
    cookZFault m cb coff = none ↔ inRange m cb coff Config.ckBytes := by
  unfold cookZFault
  split <;> simp_all

theorem badKey_eq_false_iff (m : Memory) (kb koff klen : Nat) :
    badKey m kb koff klen = false ↔ legalKeyLen klen ∧ inRange m kb koff klen := by
  simp only [badKey, Bool.or_eq_false_iff, decide_eq_false_iff_not, not_not]

theorem blockFault_eq_none_iff (m : Memory) (cb coff sb soff db doff : Nat) :
    blockFault m cb coff sb soff db doff = none ↔
      inRange m cb coff Config.ckBytes ∧ inRange m sb soff Config.blockBytes ∧
        inRange m db doff Config.blockBytes := by
  unfold blockFault inRange Config.ckBytes Config.blockBytes
  repeat' split
  all_goals simp
  all_goals omega

/-! ### The cook commands -/

theorem publish_eq (cb coff : Nat) (r : Scratch) (s : State) :
    publish cb coff r s =
      .next (State.completed { s with scratch := r, mem := memWrite s.mem cb coff r.ckb.toList }) := rfl

theorem cookValidating_of_badHandle {expand : Scratch → Scratch} {kb koff klen cb coff : Nat} {s : State}
    (h : badHandle s.mem [kb, cb] = true) :
    cookValidating expand kb koff klen cb coff s = .next (s.faulted .illegalCommand) := by
  simp [cookValidating, h, raise]

theorem cookValidating_of_fault {expand : Scratch → Scratch} {kb koff klen cb coff : Nat} {s : State} {f : FaultCode}
    (h : badHandle s.mem [kb, cb] = false) (hf : cookFault s.mem kb koff klen cb coff = some f) :
    cookValidating expand kb koff klen cb coff s = .next (s.begin.faulted f) := by
  simp [cookValidating, h, hf, raise]

theorem cookValidating_of_none {expand : Scratch → Scratch} {kb koff klen cb coff : Nat} {s : State}
    (h : badHandle s.mem [kb, cb] = false) (hf : cookFault s.mem kb koff klen cb coff = none) :
    cookValidating expand kb koff klen cb coff s =
      publish cb coff (pack (expand (loadKey (memRead s.mem kb koff klen) (Scratch.free s.draws)))) s.begin := by
  simp [cookValidating, h, hf, cook]

theorem cookCompat_of_badHandle {expand : Scratch → Scratch} {kb koff klen cb coff : Nat} {s : State}
    (h : badHandle s.mem [kb, cb] = true) :
    cookCompat expand kb koff klen cb coff s = .next (s.faulted .illegalCommand) := by
  simp [cookCompat, h, raise]

theorem cookCompat_of_fault {expand : Scratch → Scratch} {kb koff klen cb coff : Nat} {s : State} {f : FaultCode}
    (h : badHandle s.mem [kb, cb] = false) (hf : cookZFault s.mem cb coff = some f) :
    cookCompat expand kb koff klen cb coff s = .next (s.begin.faulted f) := by
  simp [cookCompat, h, hf, raise]

theorem cookCompat_of_badKey {expand : Scratch → Scratch} {kb koff klen cb coff : Nat} {s : State}
    (h : badHandle s.mem [kb, cb] = false) (hf : cookZFault s.mem cb coff = none)
    (hk : badKey s.mem kb koff klen = true) :
    cookCompat expand kb koff klen cb coff s = publish cb coff (zeroFill (Scratch.free s.draws)) s.begin := by
  simp [cookCompat, h, hf, hk]

theorem cookCompat_of_goodKey {expand : Scratch → Scratch} {kb koff klen cb coff : Nat} {s : State}
    (h : badHandle s.mem [kb, cb] = false) (hf : cookZFault s.mem cb coff = none)
    (hk : badKey s.mem kb koff klen = false) :
    cookCompat expand kb koff klen cb coff s =
      publish cb coff (pack (expand (loadKey (memRead s.mem kb koff klen) (Scratch.free s.draws)))) s.begin := by
  simp [cookCompat, h, hf, hk, cook]

/-! ### The block commands -/

theorem blockCommand_of_badHandle {tr : Scratch → Scratch} {cb coff sb soff db doff : Nat} {s : State}
    (h : badHandle s.mem [cb, sb, db] = true) :
    blockCommand tr cb coff sb soff db doff s = .next (s.faulted .illegalCommand) := by
  simp [blockCommand, h, raise]

theorem blockCommand_of_fault {tr : Scratch → Scratch} {cb coff sb soff db doff : Nat} {s : State} {f : FaultCode}
    (h : badHandle s.mem [cb, sb, db] = false) (hf : blockFault s.mem cb coff sb soff db doff = some f) :
    blockCommand tr cb coff sb soff db doff s = .next (s.begin.faulted f) := by
  simp [blockCommand, h, hf, raise]

theorem blockCommand_of_mismatch {tr : Scratch → Scratch} {cb coff sb soff db doff : Nat} {s : State}
    (h : badHandle s.mem [cb, sb, db] = false) (hf : blockFault s.mem cb coff sb soff db doff = none)
    (hn : ¬ legalNr ((memRead s.mem cb coff Config.ckBytes).getD Config.ckNrOffset 0)) :
    blockCommand tr cb coff sb soff db doff s = .next (s.begin.faulted .scheduleRoundCountMismatch) := by
  unfold blockCommand
  simp only [h, hf, Bool.false_eq_true, if_false]
  exact if_pos hn

/-- The registers a block command hands to its transform: `NR`, `RK` and `S` loaded from the operands (R188), the rest
unspecified. -/
def loaded (ck block : List Byte) (draw : Nat) : Scratch := loadS block (loadRk ck (loadNr ck (Scratch.free draw)))

theorem blockCommand_of_legal {tr : Scratch → Scratch} {cb coff sb soff db doff : Nat} {s : State}
    (h : badHandle s.mem [cb, sb, db] = false) (hf : blockFault s.mem cb coff sb soff db doff = none)
    (hn : legalNr ((memRead s.mem cb coff Config.ckBytes).getD Config.ckNrOffset 0)) :
    blockCommand tr cb coff sb soff db doff s =
      .next (State.completed { s.begin with
        scratch := tr (loaded (memRead s.mem cb coff Config.ckBytes) (memRead s.mem sb soff Config.blockBytes) s.draws)
        mem := memWrite s.mem db doff
          (tr (loaded (memRead s.mem cb coff Config.ckBytes) (memRead s.mem sb soff Config.blockBytes)
            s.draws)).s.bytes }) := by
  unfold blockCommand
  simp only [h, hf, Bool.false_eq_true, if_false]
  exact if_neg (not_not.2 hn)

/-! ### Every command -/

/-- The ways a command can end (60_exceptions.md R244, R246; 20_memory.md R57, R58): decode's fault on a handle, a fault
of its checks, or completion, with no write (`TINIT`) or one write of its window. -/
inductive Ending (i : Instr) (s : State) : State → Prop where
  | badHandle (h : ∃ x ∈ handlesOf i, s.mem.length ≤ x) : Ending i s (s.faulted .illegalCommand)
  | fault (f : FaultCode) : Ending i s (s.begin.faulted f)
  | noWrite (h : i = .tinit) : Ending i s s.begin.completed
  | write (b a : Nat) (vs : List Byte) (r : Scratch) (hb : b < s.mem.length) (hr : inRange s.mem b a vs.length)
      (hw : ∀ b' a', InWindow i b' a' ↔ b' = b ∧ a ≤ a' ∧ a' < a + vs.length) :
      Ending i s (State.completed { s.begin with scratch := r, mem := memWrite s.mem b a vs })

theorem cookValidating_ending {i : Instr} {expand : Scratch → Scratch} {kb koff klen cb coff : Nat} {s : State}
    (hh : handlesOf i = [kb, cb])
    (hw : ∀ b a, InWindow i b a ↔ b = cb ∧ coff ≤ a ∧ a < coff + Config.ckBytes) :
    ∃ t, cookValidating expand kb koff klen cb coff s = .next t ∧ Ending i s t := by
  cases h : badHandle s.mem [kb, cb] with
  | true => exact ⟨_, cookValidating_of_badHandle h, .badHandle (hh ▸ (badHandle_eq_true_iff _ _).1 h)⟩
  | false =>
    cases hf : cookFault s.mem kb koff klen cb coff with
    | some f => exact ⟨_, cookValidating_of_fault h hf, .fault f⟩
    | none =>
      have hr := (cookFault_eq_none_iff _ _ _ _ _ _).1 hf
      refine ⟨_, (cookValidating_of_none h hf).trans (publish_eq ..), .write cb coff _ _ ?_ ?_ ?_⟩
      · exact (badHandle_eq_false_iff _ _).1 h cb (by simp)
      · simpa using hr.2.2
      · simpa using hw

theorem cookCompat_ending {i : Instr} {expand : Scratch → Scratch} {kb koff klen cb coff : Nat} {s : State}
    (hh : handlesOf i = [kb, cb])
    (hw : ∀ b a, InWindow i b a ↔ b = cb ∧ coff ≤ a ∧ a < coff + Config.ckBytes) :
    ∃ t, cookCompat expand kb koff klen cb coff s = .next t ∧ Ending i s t := by
  cases h : badHandle s.mem [kb, cb] with
  | true => exact ⟨_, cookCompat_of_badHandle h, .badHandle (hh ▸ (badHandle_eq_true_iff _ _).1 h)⟩
  | false =>
    have hcb : cb < s.mem.length := (badHandle_eq_false_iff _ _).1 h cb (by simp)
    cases hf : cookZFault s.mem cb coff with
    | some f => exact ⟨_, cookCompat_of_fault h hf, .fault f⟩
    | none =>
      have hr := (cookZFault_eq_none_iff _ _ _).1 hf
      cases hk : badKey s.mem kb koff klen with
      | true =>
        exact ⟨_, (cookCompat_of_badKey h hf hk).trans (publish_eq ..),
          .write cb coff _ _ hcb (by simpa using hr) (by simpa using hw)⟩
      | false =>
        exact ⟨_, (cookCompat_of_goodKey h hf hk).trans (publish_eq ..),
          .write cb coff _ _ hcb (by simpa using hr) (by simpa using hw)⟩

theorem blockCommand_ending {i : Instr} {tr : Scratch → Scratch} {cb coff sb soff db doff : Nat} {s : State}
    (hh : handlesOf i = [cb, sb, db])
    (hw : ∀ b a, InWindow i b a ↔ b = db ∧ doff ≤ a ∧ a < doff + Config.blockBytes) :
    ∃ t, blockCommand tr cb coff sb soff db doff s = .next t ∧ Ending i s t := by
  cases h : badHandle s.mem [cb, sb, db] with
  | true => exact ⟨_, blockCommand_of_badHandle h, .badHandle (hh ▸ (badHandle_eq_true_iff _ _).1 h)⟩
  | false =>
    cases hf : blockFault s.mem cb coff sb soff db doff with
    | some f => exact ⟨_, blockCommand_of_fault h hf, .fault f⟩
    | none =>
      have hr := (blockFault_eq_none_iff _ _ _ _ _ _ _).1 hf
      by_cases hn : legalNr ((memRead s.mem cb coff Config.ckBytes).getD Config.ckNrOffset 0)
      · refine ⟨_, blockCommand_of_legal h hf hn, .write db doff _ _ ?_ ?_ ?_⟩
        · exact (badHandle_eq_false_iff _ _).1 h db (by simp)
        · rw [quad_bytes_length]; exact hr.2.2
        · rw [quad_bytes_length]; exact hw
      · exact ⟨_, blockCommand_of_mismatch h hf hn, .fault _⟩

/-- What a command can do, said once: `exec` answers a next state, one of `Ending`'s. -/
theorem exec_ending (i : Instr) (s : State) : ∃ t, exec i s = .next t ∧ Ending i s t := by
  cases i with
  | tinit => exact ⟨_, rfl, .noWrite rfl⟩
  | cke => exact cookValidating_ending rfl fun _ _ => Iff.rfl
  | ckd => exact cookValidating_ending rfl fun _ _ => Iff.rfl
  | ckeZ => exact cookCompat_ending rfl fun _ _ => Iff.rfl
  | ckdZ => exact cookCompat_ending rfl fun _ _ => Iff.rfl
  | enc => exact blockCommand_ending rfl fun _ _ => Iff.rfl
  | dec => exact blockCommand_ending rfl fun _ _ => Iff.rfl

/-- The inversion form of `exec_ending`. -/
theorem ending_of_exec {i : Instr} {s t : State} (h : exec i s = .next t) : Ending i s t := by
  obtain ⟨u, hu, he⟩ := exec_ending i s
  rw [h] at hu
  injection hu with hu
  exact hu ▸ he

end Sys2Proof.Machine
end

