-- ==== Sys2Proof/Laws/Block.lean ====
section
/-! SUPPORT. The Block Transform: the pipelines over the scratch registers (42_encrypt.md R189, 43_decrypt.md R218) as
functions of `S`, `NR` and the round-key groups, and what the loads (R188) put there. -/

namespace Sys2Proof.Machine

/-! ### What the loads put in the registers (R188) -/

@[simp] theorem loaded_s (ck block : List Byte) (d : Nat) : (loaded ck block d).s = Quad.ofBytes block := rfl

@[simp] theorem loaded_nr (ck block : List Byte) (d : Nat) :
    (loaded ck block d).nr = ck.getD Config.ckNrOffset 0 := by
  unfold loaded
  simp

/-- A legal round count is at most 14, so every group has its registers (10_state.md R24, R25). -/
theorem cookedNr_le {ck : List Byte} (h : legalNr (ck.getD Config.ckNrOffset 0)) :
    10 ≤ cookedNr ck ∧ cookedNr ck ≤ 14 := by
  unfold cookedNr
  rcases h with h | h | h <;> rw [h] <;> decide

theorem cookedSchedule_getD (ck : List Byte) {i : Nat} (h : i < scheduleWords (cookedNr ck)) :
    (cookedSchedule ck).getD i 0 = be32 ck (4 * i) := by
  simp [cookedSchedule, h]

theorem loaded_rkAt {ck : List Byte} (block : List Byte) (d : Nat) (hn : legalNr (ck.getD Config.ckNrOffset 0))
    {i : Nat} (h : i < scheduleWords (cookedNr ck)) :
    (loaded ck block d).rkAt i = (cookedSchedule ck).getD i 0 := by
  have := cookedNr_le hn
  have h' : i < scheduleWords (ck.getD Config.ckNrOffset 0).toNat := h
  rw [cookedSchedule_getD ck h]
  show (loadRk ck (loadNr ck (Scratch.free d))).rkAt i = _
  rw [loadRk_rkAt _ _ (by unfold scheduleWords at h; omega), loadNr_nr, if_pos h']

/-- Every round-key group that the pipelines use is the cooked key's. -/
theorem loaded_group {ck : List Byte} (block : List Byte) (d : Nat) (hn : legalNr (ck.getD Config.ckNrOffset 0))
    {g : Nat} (h : g ≤ cookedNr ck) :
    (loaded ck block d).group g = groupOf (cookedSchedule ck) g := by
  unfold Scratch.group groupOf
  rw [loaded_rkAt block d hn, loaded_rkAt block d hn, loaded_rkAt block d hn, loaded_rkAt block d hn]
  all_goals unfold scheduleWords; omega

/-! ### The pipelines -/

/-- A loop of rounds that each change only `T`, `S` and `RND` leaves `RK` and `NR`, and folds over `S`. -/
theorem rounds_eq {round : Scratch → Scratch} {f : Quad → Quad} (ns : List Nat) (hns : ∀ n ∈ ns, n < 16)
    (hs : ∀ r, (round r).s = (f r.s).xor (r.group r.rnd.toNat)) (hk : ∀ r, (round r).rk = r.rk)
    (hn : ∀ r, (round r).nr = r.nr) (r : Scratch) :
    let r' := ns.foldl (fun r n => round (r.setRnd n)) r
    r'.s = ns.foldl (fun q n => (f q).xor (r.group n)) r.s ∧ r'.rk = r.rk ∧ r'.nr = r.nr := by
  induction ns generalizing r with
  | nil => exact ⟨rfl, rfl, rfl⟩
  | cons n ns ih =>
    obtain ⟨h1, h2, h3⟩ := ih (fun m hm => hns m (List.mem_cons_of_mem _ hm)) (round (r.setRnd n))
    have hg : ∀ g, (round (r.setRnd n)).group g = r.group g := by
      intro g
      simp only [Scratch.group, Scratch.rkAt, hk, setRnd_rk]
    refine ⟨?_, by simpa [hk] using h2, by simpa [hn] using h3⟩
    simp only [List.foldl_cons]
    rw [h1, hs, setRnd_s, setRnd_group, setRnd_rnd_toNat r (hns n List.mem_cons_self)]
    simp only [hg]

/-- The pipeline of R189: what it leaves in `S`. -/
theorem encryptRegs_s (r : Scratch) (h : r.nr.toNat ≤ 16) :
    (encryptRegs r).s =
      (sboxLookups ((List.range' 1 (r.nr.toNat - 1)).foldl (fun q n => (teLookups q).xor (r.group n))
        (r.s.xor (r.group 0)))).xor (r.group r.nr.toNat) := by
  obtain ⟨h1, h2, h3⟩ := rounds_eq (round := encRound) (f := teLookups) (List.range' 1 (r.nr.toNat - 1))
    (by intro n hn; rw [List.mem_range'_1] at hn; omega) (fun _ => rfl) (fun _ => rfl) (fun _ => rfl)
    (addRoundKeyS 0 r)
  simp only [encryptRegs, addRoundKeyS_nr, encFinal, copyT_s, h1, h3, Scratch.group, Scratch.rkAt, h2,
    addRoundKeyS_rk, addRoundKeyS_s]

/-- The pipeline of R218: what it leaves in `S`. -/
theorem decryptRegs_s (r : Scratch) (h : r.nr.toNat ≤ 16) :
    (decryptRegs r).s =
      (invSboxLookups ((List.range' 1 (r.nr.toNat - 1)).reverse.foldl (fun q n => (tdLookups q).xor (r.group n))
        (r.s.xor (r.group r.nr.toNat)))).xor (r.group 0) := by
  obtain ⟨h1, h2, h3⟩ := rounds_eq (round := decRound) (f := tdLookups) (List.range' 1 (r.nr.toNat - 1)).reverse
    (by intro n hn; rw [List.mem_reverse, List.mem_range'_1] at hn; omega) (fun _ => rfl) (fun _ => rfl)
    (fun _ => rfl) (addRoundKeyS r.nr.toNat r)
  simp only [decryptRegs, addRoundKeyS_nr, decFinal, copyT_s, h1, Scratch.group, Scratch.rkAt, h2,
    addRoundKeyS_rk, addRoundKeyS_s]

end Sys2Proof.Machine
end

