-- ==== Sys2Proof/Laws/Decode.lean ====
section
/-! SUPPORT. Command packets (30_encoding.md): no two rows of the opcode map overlap, what a command word that is none
of them does, the length of a packet, and what the registers `CW` hold as its words arrive. -/

namespace Sys2Proof

/-- The seven command words of R86. -/
abbrev commandWords : List Word :=
  [0x00000001, 0x00000010, 0x00000011, 0x00000018, 0x00000019, 0x00000020, 0x00000021]

/-- No word is the command word of two rows: any two rows differ in a bit that both masks test. -/
theorem opcodeTable_disjoint :
    opcodeTable.Pairwise fun r q => r.pattern &&& q.mask &&& r.mask ≠ q.pattern &&& r.mask &&& q.mask := by decide

/-- Every row of the opcode map is found under its own command word. -/
theorem lookupW0_of_row : ∀ r ∈ opcodeTable, lookupW0 r.pattern = some r := by decide

theorem lookupW0_of_illegal {w0 : Word} (h : w0 ∉ commandWords) : lookupW0 w0 = none := by
  have e : ∀ w : Word, w &&& (0xFFFFFFFF : Word) = w := fun w => BitVec.and_allOnes
  simp only [commandWords, List.mem_cons, not_or, List.not_mem_nil, not_false_eq_true, and_true] at h
  simp only [lookupW0, opcodeTable, List.find?_eq_none, List.forall_mem_cons, beq_iff_eq, e]
  simp only [List.not_mem_nil, false_implies, implies_true, and_true]
  exact ⟨h.1, h.2.1, h.2.2.1, h.2.2.2.1, h.2.2.2.2.1, h.2.2.2.2.2.1, h.2.2.2.2.2.2⟩

theorem packetLen_of_illegal {w0 : Word} (h : w0 ∉ commandWords) : packetLen w0 = 1 := by
  simp [packetLen, lookupW0_of_illegal h]

theorem decode_of_illegal {w0 : Word} (h : w0 ∉ commandWords) (ws : List Word) :
    decode (w0 :: ws) = .error .illegalCommand := by
  simp [decode, lookupW0_of_illegal h]

/-- The command word of a command is one of the seven, and gives its packet's length: `W0` and one word an operand. -/
@[simp] theorem packetLen_commandWord (i : Instr) : packetLen i.commandWord = i.operands.length + 1 := by
  cases i with
  | tinit => decide
  | cke => exact (by decide : packetLen 0x00000010 = 6)
  | ckd => exact (by decide : packetLen 0x00000011 = 6)
  | ckeZ => exact (by decide : packetLen 0x00000018 = 6)
  | ckdZ => exact (by decide : packetLen 0x00000019 = 6)
  | enc => exact (by decide : packetLen 0x00000020 = 7)
  | dec => exact (by decide : packetLen 0x00000021 = 7)

theorem commandWord_mem (i : Instr) : i.commandWord ∈ commandWords := by
  cases i <;> simp [Instr.commandWord]

@[simp] theorem encode_length (i : Instr) : (encode i).length = i.operands.length + 1 := by
  simp [encode]

/-- A packet has at most seven words. -/
theorem packetLen_le_seven (w0 : Word) : packetLen w0 ≤ 7 := by
  by_cases h : w0 ∈ commandWords
  · simp only [commandWords, List.mem_cons, List.not_mem_nil, or_false] at h
    rcases h with rfl | rfl | rfl | rfl | rfl | rfl | rfl <;> decide
  · simp [packetLen_of_illegal h]

theorem packetLen_pos (w0 : Word) : 0 < packetLen w0 := by
  by_cases h : w0 ∈ commandWords
  · simp only [commandWords, List.mem_cons, List.not_mem_nil, or_false] at h
    rcases h with rfl | rfl | rfl | rfl | rfl | rfl | rfl <;> decide
  · simp [packetLen_of_illegal h]

namespace Machine

/-- Placing a word after the first keeps the command word. -/
theorem packet_put_w0 (p : Packet) {n : Nat} (h : n ≠ 0) (w : Word) : (p.put n w).w0 = p.w0 := by
  unfold Packet.put
  split
  · exact absurd rfl h
  all_goals rfl

@[simp] theorem packet_put_zero_w0 (p : Packet) (w : Word) : (p.put 0 w).w0 = w := rfl

/-- The words received, with one more. -/
theorem packet_put_words (p : Packet) {n : Nat} (h : n < 7) (w : Word) :
    (p.put n w).words (n + 1) = p.words n ++ [w] := by
  interval_cases n <;> rfl

/-- What the delivery of a word does, said once: it waits, runs a command, or faults on an illegal packet (R87, R88). -/
theorem deliver_cases (w : Word) (s : State) :
    (s.received + 1 < packetLen (s.cw.put s.received w).w0 ∧
      deliver w s = .next { s with cw := s.cw.put s.received w, received := s.received + 1 }) ∨
    (∃ i, deliver w s = exec i { s with cw := s.cw.put s.received w, received := 0 }) ∨
    deliver w s =
      .next (State.faulted .illegalCommand { s with cw := s.cw.put s.received w, received := 0 }) := by
  by_cases h : s.received + 1 < packetLen (s.cw.put s.received w).w0
  · exact .inl ⟨h, by simp [deliver, h]⟩
  · right
    simp only [deliver, if_neg h, issue]
    cases decode ((s.cw.put s.received w).words (s.received + 1)) with
    | ok p => exact .inl ⟨p.1, rfl⟩
    | error e => exact .inr rfl

end Machine

end Sys2Proof
end

