-- ==== Sys2Proof/Laws/Tables.lean ====
section
/-! SUPPORT. GF(2^8) arithmetic (40_tables.md R111, R112): multiplication by a constant is linear over exclusive-or. -/

namespace Sys2Proof.Machine

/-- The product, written out over the eight bits of the second factor (R112). -/
theorem gmul_eq_sum (a b : Byte) :
    gmul a b =
      (if b.getLsbD 0 then xtimes 0 a else 0) ^^^ (if b.getLsbD 1 then xtimes 1 a else 0) ^^^
      (if b.getLsbD 2 then xtimes 2 a else 0) ^^^ (if b.getLsbD 3 then xtimes 3 a else 0) ^^^
      (if b.getLsbD 4 then xtimes 4 a else 0) ^^^ (if b.getLsbD 5 then xtimes 5 a else 0) ^^^
      (if b.getLsbD 6 then xtimes 6 a else 0) ^^^ (if b.getLsbD 7 then xtimes 7 a else 0) := by
  have h : ∀ (p : Bool) (acc t : Byte),
      (if p = true then acc ^^^ t else acc) = acc ^^^ (if p = true then t else 0) := by
    intro p acc t; cases p <;> simp
  simp [gmul, List.range_succ, h]

theorem ite_bxor (p q : Bool) (t : Byte) :
    (if (p ^^ q) = true then t else 0) = (if p = true then t else 0) ^^^ (if q = true then t else 0) := by
  cases p <;> cases q <;> simp

/-- Multiplication is linear in its second factor. -/
theorem gmul_xor_right (c a b : Byte) : gmul c (a ^^^ b) = gmul c a ^^^ gmul c b := by
  simp only [gmul_eq_sum, BitVec.getLsbD_xor, ite_bxor]
  ac_rfl

@[simp] theorem gmul_zero_right (c : Byte) : gmul c 0 = 0 := by
  simp [gmul_eq_sum]

/-- `xtime` is linear. -/
theorem xtime_xor (a b : Byte) : xtime (a ^^^ b) = xtime a ^^^ xtime b := by
  simp only [xtime, BitVec.getLsbD_xor]
  cases a.getLsbD 7 <;> cases b.getLsbD 7 <;>
    simp [BitVec.shiftLeft_xor_distrib] <;> ext i hi <;> simp <;> grind

theorem xtimes_xor (n : Nat) (a b : Byte) : xtimes n (a ^^^ b) = xtimes n a ^^^ xtimes n b := by
  induction n with
  | zero => rfl
  | succ n ih => simp [xtimes, ih, xtime_xor]

/-- Multiplication is linear in its first factor. -/
theorem gmul_xor_left (a b c : Byte) : gmul (a ^^^ b) c = gmul a c ^^^ gmul b c := by
  have h : ∀ (p : Bool) (u v : Byte),
      (if p = true then u ^^^ v else 0) = (if p = true then u else 0) ^^^ (if p = true then v else 0) := by
    intro p u v; cases p <;> simp
  simp only [gmul_eq_sum, xtimes_xor, h]
  ac_rfl

end Sys2Proof.Machine
end

