-- ==== Sys2Proof/Laws/KeySchedule.lean ====
section
/-! SUPPORT. The Key Scheduler (41_key_schedule.md): the loops over the scratch registers compute the schedules of
`Machine/Reference.lean`, whatever the unspecified registers hold, and what is packed is the cooked key. -/

namespace Sys2Proof.Machine

/-! ### The schedules as lists -/

@[simp] theorem expandFrom_length (nk n : Nat) (w : List Word) : (expandFrom nk n w).length = w.length + n := by
  induction n generalizing w with
  | zero => rfl
  | succ n ih => simp [expandFrom, ih]; omega

/-- The recurrence only appends. -/
theorem expandFrom_getD (nk n : Nat) (w : List Word) {j : Nat} (h : j < w.length) :
    (expandFrom nk n w).getD j 0 = w.getD j 0 := by
  induction n generalizing w with
  | zero => rfl
  | succ n ih =>
    rw [expandFrom, ih _ (by simp; omega)]
    exact List.getD_append _ _ _ _ h

/-- The recurrence of R151 at every index after the words it starts from. -/
theorem expandFrom_getD_step (nk n : Nat) (w : List Word) (hk : 0 < nk) (hw : nk ≤ w.length) {i : Nat}
    (h1 : w.length ≤ i) (h2 : i < w.length + n) :
    (expandFrom nk n w).getD i 0 =
      (expandFrom nk n w).getD (i - nk) 0 ^^^ expansionTemp nk i ((expandFrom nk n w).getD (i - 1) 0) := by
  induction n generalizing w with
  | zero => omega
  | succ n ih =>
    rw [expandFrom]
    by_cases hi : i = w.length
    · subst hi
      have hl : (w ++ [nextWord nk w]).length = w.length + 1 := by simp
      rw [expandFrom_getD _ _ _ (by omega), expandFrom_getD _ _ _ (by omega), expandFrom_getD _ _ _ (by omega),
        List.getD_append _ _ _ (w.length - nk) (by omega), List.getD_append _ _ _ (w.length - 1) (by omega),
        List.getD_append_right _ _ _ _ (le_refl _)]
      simp [nextWord]
    · exact ih _ (by simp; omega) (by simp; omega) (by simp; omega)

@[simp] theorem keyWords_length (key : List Byte) : (keyWords key).length = key.length / 4 := by simp [keyWords]

theorem keyWords_getD (key : List Byte) {i : Nat} (h : i < key.length / 4) :
    (keyWords key).getD i 0 = be32 key (4 * i) := by
  simp [keyWords, h]

/-- `4 * (Nr + 1)` words (R163). -/
theorem encSchedule_length (key : List Byte) :
    (encSchedule key).length = scheduleWords (roundCount key.length) := by
  simp [encSchedule, scheduleWords, roundCount]; omega

theorem encSchedule_getD_key (key : List Byte) {i : Nat} (h : i < key.length / 4) :
    (encSchedule key).getD i 0 = be32 key (4 * i) := by
  rw [encSchedule, expandFrom_getD _ _ _ (by simpa using h), keyWords_getD key h]

@[simp] theorem decSchedule_length (key : List Byte) : (decSchedule key).length = (encSchedule key).length := by
  simp [decSchedule]

theorem decSchedule_getD (key : List Byte) {i : Nat} (h : i < (encSchedule key).length) :
    (decSchedule key).getD i 0 =
      if 4 ≤ i ∧ i < 4 * roundCount key.length then invMixColumnWord ((encSchedule key).getD i 0)
      else (encSchedule key).getD i 0 := by
  simp [decSchedule, h, List.getD_eq_getElem?_getD]

/-! ### The expansion over the registers -/

/-- The registers hold a schedule: `NK`, `NR` and the words, whatever the rest holds. -/
structure HoldsSchedule (r : Scratch) (nk nr : Nat) (w : List Word) : Prop where
  nk : r.nk.toNat = nk
  nr : r.nr.toNat = nr
  rk : ∀ j, j < w.length → r.rkAt j = w.getD j 0

theorem loadKey_holds {key : List Byte} (r : Scratch) (h : legalKeyLen key.length) :
    HoldsSchedule (loadKey key r) (key.length / 4) (roundCount key.length) (keyWords key) where
  nk := by
    rcases h with h | h | h <;> simp [loadKey, h]
  nr := by
    rcases h with h | h | h <;> simp [loadKey, h, roundCount]
  rk j hj := by
    rw [keyWords_length] at hj
    rw [loadKey_rkAt key r (by rcases h with h | h | h <;> omega), if_pos hj, keyWords_getD key hj]

/-- One step of the loop of R151 appends the recurrence's next word. -/
theorem expandStep_holds {r : Scratch} {nk nr : Nat} {w : List Word} (h : HoldsSchedule r nk nr w) (hk : 0 < nk)
    (hw : nk ≤ w.length) (h60 : w.length < 60) :
    HoldsSchedule (expandStore (expandTemp (r.setI w.length))) nk nr (w ++ [nextWord nk w]) where
  nk := h.nk
  nr := h.nr
  rk j hj := by
    have hi : (expandTemp (r.setI w.length)).i.toNat = w.length := setI_i_toNat r (by omega)
    have hn : (expandTemp (r.setI w.length)).nk.toNat = nk := h.nk
    have ht : (expandTemp (r.setI w.length)).tmp = expansionTemp nk w.length (w.getD (w.length - 1) 0) := by
      show expansionTemp (r.setI w.length).nk.toNat (r.setI w.length).i.toNat
        ((r.setI w.length).rkAt ((r.setI w.length).i.toNat - 1)) = _
      rw [setI_i_toNat r (by omega), setI_nk, h.nk, setI_rkAt, h.rk _ (by omega)]
    have hr : ∀ k, (expandTemp (r.setI w.length)).rkAt k = r.rkAt k := fun _ => rfl
    rw [expandStore, hi, hn, ht, setRk_rkAt _ _ _ h60, hr, hr, h.rk _ (by omega)]
    by_cases he : j = w.length
    · subst he; simp [nextWord]
    · have : j < w.length := by simp at hj; omega
      rw [if_neg he, h.rk j this, List.getD_append _ _ _ _ this]

theorem expandLoop_holds (n : Nat) {r : Scratch} {nk nr : Nat} {w : List Word} (h : HoldsSchedule r nk nr w)
    (hk : 0 < nk) (hw : nk ≤ w.length) (h60 : w.length + n ≤ 60) :
    HoldsSchedule ((List.range' w.length n).foldl (fun r i => expandStore (expandTemp (r.setI i))) r) nk nr
      (expandFrom nk n w) := by
  induction n generalizing r w with
  | zero => exact h
  | succ n ih =>
    have := ih (expandStep_holds h hk hw (by omega)) (by simp; omega) (by simp; omega)
    simpa [List.range'_succ, expandFrom] using this

/-- The expansion of a loaded key leaves the encryption schedule in the registers (R151). -/
theorem expandEnc_holds {key : List Byte} (r : Scratch) (h : legalKeyLen key.length) :
    HoldsSchedule (expandEnc (loadKey key r)) (key.length / 4) (roundCount key.length) (encSchedule key) := by
  have hl := loadKey_holds r h
  have := expandLoop_holds (scheduleWords (roundCount key.length) - key.length / 4) hl
    (by rcases h with h | h | h <;> omega) (by simp)
    (by rcases h with h | h | h <;> simp [h, scheduleWords, roundCount])
  rw [keyWords_length] at this
  rw [expandEnc, hl.nk, hl.nr]
  exact this

/-- The loop of R159 over `n` words from `a` on puts each of them through `InvMixColumnWord`. -/
theorem invMixLoop_holds (n : Nat) {a : Nat} {r : Scratch} {nk nr : Nat} {w : List Word}
    (h : HoldsSchedule r nk nr w) (h60 : a + n ≤ 60) (hw : a + n ≤ w.length) :
    HoldsSchedule ((List.range' a n).foldl (fun r i => invMixStore (r.setI i)) r) nk nr
      (w.mapIdx fun i x => if a ≤ i ∧ i < a + n then invMixColumnWord x else x) := by
  induction n generalizing r a w with
  | zero =>
    have e : (w.mapIdx fun i x => if a ≤ i ∧ i < a + 0 then invMixColumnWord x else x) = w := by
      apply List.ext_getElem
      · simp
      · intro i h1 h2
        simp [show ¬ (a ≤ i ∧ i < a) by omega]
    rw [e]; exact h
  | succ n ih =>
    have h1 : HoldsSchedule (invMixStore (r.setI a)) nk nr
        (w.mapIdx fun i x => if i = a then invMixColumnWord x else x) := by
      refine ⟨h.nk, h.nr, fun j hj => ?_⟩
      have hj_lt : j < w.length := by simpa using hj
      rw [invMixStore, setI_i_toNat r (by omega), setI_rkAt, setRk_rkAt _ _ _ (by omega), setI_rkAt, h.rk j hj_lt,
        h.rk a (by omega)]
      by_cases he : j = a
      · subst he; simp [List.getElem?_eq_getElem hj_lt]
      · simp [he, List.getElem?_eq_getElem hj_lt]
    have := ih (a := a + 1) h1 (by omega) (by simp; omega)
    rw [List.range'_succ, List.foldl_cons]
    convert this using 1
    apply List.ext_getElem
    · simp
    · intro i h1 h2
      simp only [List.getElem_mapIdx]
      by_cases he : i = a
      · subst he; simp
      · by_cases hc : a ≤ i ∧ i < a + (n + 1)
        · simp [he, hc, show a + 1 ≤ i ∧ i < a + 1 + n by omega]
        · rw [if_neg hc, if_neg (by omega), if_neg he]

/-- The second loop leaves the decryption schedule (R155). -/
theorem expandDec_holds {key : List Byte} (r : Scratch) (h : legalKeyLen key.length) :
    HoldsSchedule (expandDec (loadKey key r)) (key.length / 4) (roundCount key.length) (decSchedule key) := by
  have he := expandEnc_holds r h
  have hl := encSchedule_length key
  have hb : 1 ≤ roundCount key.length ∧ roundCount key.length ≤ 14 := by
    rcases h with h | h | h <;> simp [h, roundCount]
  have := invMixLoop_holds (4 * roundCount key.length - 4) (a := 4) he (by omega)
    (by rw [hl, scheduleWords]; omega)
  rw [show 4 + (4 * roundCount key.length - 4) = 4 * roundCount key.length by omega] at this
  simp only [expandDec, he.nr]
  exact this

/-! ### The cooked key -/

theorem cookedBytes_length {w : List Word} {nr : Nat} (h : 4 * w.length ≤ 240) :
    (cookedBytes w nr).length = 241 := by
  simp [cookedBytes, Config.ckNrOffset]; omega

/-- Byte `j` of a list of words. -/
theorem flatMap_wordBytes_getD (ws : List Word) (j : Nat) :
    (ws.flatMap wordBytes).getD j 0 = byteK (j % 4) (ws.getD (j / 4) 0) := by
  induction ws generalizing j with
  | nil => simp [byteK]
  | cons w ws ih =>
    rw [List.flatMap_cons]
    by_cases hj : j < 4
    · rw [List.getD_append _ _ _ _ (by simpa using hj)]
      interval_cases j <;> rfl
    · rw [List.getD_append_right _ _ _ _ (by simpa using hj), ih, wordBytes_length,
        show j % 4 = (j - 4) % 4 by omega, show j / 4 = (j - 4) / 4 + 1 by omega, List.getD_cons_succ]

/-- Every byte of the layout of R157. -/
theorem cookedBytes_getD {w : List Word} {nr : Nat} (h : 4 * w.length ≤ 240) {j : Nat} (hj : j < 241) :
    (cookedBytes w nr).getD j 0 =
      if j = 240 then BitVec.ofNat 8 nr
      else if j < 4 * w.length then byteK (j % 4) (w.getD (j / 4) 0)
      else 0 := by
  have e : (w.flatMap wordBytes ++ List.replicate (Config.ckNrOffset - 4 * w.length) (0 : Byte)).length = 240 := by
    simp [Config.ckNrOffset]; omega
  unfold cookedBytes
  by_cases h1 : j = 240
  · subst h1
    rw [List.getD_append_right _ _ _ _ (by omega), e]; simp
  · rw [List.getD_append _ _ _ _ (by omega), if_neg h1]
    by_cases h2 : j < 4 * w.length
    · rw [List.getD_append _ _ _ _ (by rw [flatMap_wordBytes_length]; omega), flatMap_wordBytes_getD, if_pos h2]
    · rw [List.getD_append_right _ _ _ _ (by rw [flatMap_wordBytes_length]; omega), if_neg h2]
      simp [List.getD_eq_getElem?_getD, List.getElem?_replicate]
      split <;> rfl

/-- What `pack` puts in `CKB` (R157). -/
theorem pack_ckb {r : Scratch} {nk nr : Nat} {w : List Word} (h : HoldsSchedule r nk nr w)
    (hw : w.length = scheduleWords nr) (h60 : w.length ≤ 60) :
    (pack r).ckb.toList = cookedBytes w nr := by
  have hnr : r.nr = BitVec.ofNat 8 nr := by rw [← h.nr]; simp
  apply List.ext_getElem
  · rw [cookedBytes_length (by omega)]; simp
  · intro j h1 h2
    have hj : j < 241 := by simpa using h1
    have e : (cookedBytes w nr)[j] = (cookedBytes w nr).getD j 0 := (List.getD_eq_getElem ..).symm
    rw [e, cookedBytes_getD (by omega) hj]
    simp only [pack, Vector.toList_ofFn, List.getElem_ofFn, h.nr, ← hw]
    by_cases h3 : j = 240
    · simp [h3, hnr]
    · by_cases h4 : j < 4 * w.length
      · simp [h3, h4, h.rk (j / 4) (by omega)]
      · simp [h3, h4]

theorem scheduleWords_le (key : List Byte) (h : legalKeyLen key.length) :
    scheduleWords (roundCount key.length) ≤ 60 := by
  rcases h with h | h | h <;> simp [h, scheduleWords, roundCount]

/-- A cooked encryption key, from any contents of the unspecified registers. -/
theorem cookedEnc_of_regs {key : List Byte} (r : Scratch) (h : legalKeyLen key.length) :
    (pack (expandEnc (loadKey key r))).ckb.toList = cookedEnc key :=
  pack_ckb (expandEnc_holds r h) (encSchedule_length key) (by rw [encSchedule_length]; exact scheduleWords_le key h)

/-- A cooked decryption key, from any contents of the unspecified registers. -/
theorem cookedDec_of_regs {key : List Byte} (r : Scratch) (h : legalKeyLen key.length) :
    (pack (expandDec (loadKey key r))).ckb.toList = cookedDec key :=
  pack_ckb (expandDec_holds r h) (by rw [decSchedule_length, encSchedule_length])
    (by rw [decSchedule_length, encSchedule_length]; exact scheduleWords_le key h)

/-- The zero-filled cooked key (R160). -/
theorem zeroFill_ckb (r : Scratch) : (zeroFill r).ckb.toList = cookedZero := by
  simp only [zeroFill, cookedZero, Vector.toList_replicate]

end Sys2Proof.Machine
end

