-- ==== Sys2Proof/Laws/PerInstr.lean ====
section
/-! SUPPORT. Facts about every instruction as syntax, one lemma a constructor. -/

namespace Sys2Proof.Laws.PacketShape

/-- The packet of a command has the length its own first word decides (30_encoding.md R88), its first word is one of the
seven of R86, and after it comes one word for each operand, in packet order (R80 to R84). -/
def Statement (i : Instr) : Prop :=
  (encode i).length = packetLen ((encode i).getD 0 0) ∧ (encode i).getD 0 0 ∈ commandWords ∧
    (encode i).tail = i.operands.map (BitVec.ofNat 32)

theorem tinit : Statement .tinit := ⟨(packetLen_commandWord .tinit).symm, commandWord_mem .tinit, rfl⟩

theorem cke (kb koff klen cb coff : Nat) : Statement (.cke kb koff klen cb coff) :=
  ⟨(packetLen_commandWord (.cke kb koff klen cb coff)).symm, commandWord_mem (.cke kb koff klen cb coff), rfl⟩

theorem ckd (kb koff klen cb coff : Nat) : Statement (.ckd kb koff klen cb coff) :=
  ⟨(packetLen_commandWord (.ckd kb koff klen cb coff)).symm, commandWord_mem (.ckd kb koff klen cb coff), rfl⟩

theorem ckeZ (kb koff klen cb coff : Nat) : Statement (.ckeZ kb koff klen cb coff) :=
  ⟨(packetLen_commandWord (.ckeZ kb koff klen cb coff)).symm, commandWord_mem (.ckeZ kb koff klen cb coff), rfl⟩

theorem ckdZ (kb koff klen cb coff : Nat) : Statement (.ckdZ kb koff klen cb coff) :=
  ⟨(packetLen_commandWord (.ckdZ kb koff klen cb coff)).symm, commandWord_mem (.ckdZ kb koff klen cb coff), rfl⟩

theorem enc (cb coff sb soff db doff : Nat) : Statement (.enc cb coff sb soff db doff) :=
  ⟨(packetLen_commandWord (.enc cb coff sb soff db doff)).symm, commandWord_mem (.enc cb coff sb soff db doff), rfl⟩

theorem dec (cb coff sb soff db doff : Nat) : Statement (.dec cb coff sb soff db doff) :=
  ⟨(packetLen_commandWord (.dec cb coff sb soff db doff)).symm, commandWord_mem (.dec cb coff sb soff db doff), rfl⟩

end Sys2Proof.Laws.PacketShape
end

