-- ==== Sys2Proof/Machine/Assembler.lean ====
section
/-! DEFINITION. The assembler syntax (30_encoding.md R89), from lines of characters to the buffers and packet words of a
program, and the source's call forms (R90) as the command each expands to. No meaning uses this file. -/

namespace Sys2Proof.Machine

/-! ### Tokens -/

/-- Why a line is not in the syntax of R89. -/
inductive AsmError where
  /-- The first word of the line is no mnemonic and no directive. -/
  | unknownMnemonic
  /-- Too few or too many operands. -/
  | operandCount
  /-- A handle operand that no `.buf` line above declares. -/
  | unknownBuffer
  /-- An offset, length, capacity or word that is no unsigned number below `2 ^ 32` (R85). -/
  | badNumber
  /-- A `.buf` line whose name is empty or declared already (log 9). -/
  | badName
  deriving DecidableEq, Repr

/-- Space, tabulator, carriage return. -/
def isBlank (c : Char) : Bool := c == ' ' || c == '\t' || c == '\r'

/-- Without the blanks at both ends. -/
def trimBlanks (cs : List Char) : List Char :=
  ((cs.dropWhile isBlank).reverse.dropWhile isBlank).reverse

/-- The line before its comment: "`;` starts a comment". -/
def withoutComment (cs : List Char) : List Char := cs.takeWhile (· != ';')

/-- The pieces between the commas. -/
def splitCommas : List Char → List (List Char)
  | [] => [[]]
  | c :: cs =>
    match splitCommas cs with
    | [] => [[c]]
    | w :: ws => if c == ',' then [] :: w :: ws else (c :: w) :: ws

/-- The operands of a line: none where nothing stands after the mnemonic. -/
def operandTexts (cs : List Char) : List (List Char) :=
  if (trimBlanks cs).isEmpty then [] else (splitCommas cs).map trimBlanks

/-- The value of a digit in base 10 or 16, letters in either case (DESIGN CHOICE, safe, log 9). -/
def digitValue (base : Nat) (c : Char) : Option Nat :=
  let v :=
    if '0'.toNat ≤ c.toNat ∧ c.toNat ≤ '9'.toNat then c.toNat - '0'.toNat
    else if 'a'.toNat ≤ c.toNat ∧ c.toNat ≤ 'f'.toNat then c.toNat - 'a'.toNat + 10
    else if 'A'.toNat ≤ c.toNat ∧ c.toNat ≤ 'F'.toNat then c.toNat - 'A'.toNat + 10
    else base
  if v < base then some v else none

/-- The digits of a number, at least one. -/
def digitsValue (base : Nat) : List Char → Option Nat
  | [] => none
  | c :: cs => cs.foldl (fun acc d => do return (← acc) * base + (← digitValue base d)) (digitValue base c)

/-- "an unsigned number (decimal or `0x` hexadecimal)" that fits one operand word (R85). A capacity has the same bound:
DESIGN CHOICE, safe (log 9). -/
def numberValue (cs : List Char) : Except AsmError Nat :=
  let v :=
    match cs with
    | '0' :: 'x' :: ds => digitsValue 16 ds
    | ds => digitsValue 10 ds
  match v with
  | some n => if n < Config.operandBound then .ok n else .error .badNumber
  | none => .error .badNumber

/-! ### Programs -/

/-- An assembled program: its buffers' names and capacities in the order of their handles, and its packet words. -/
structure Program where
  names : List (List Char)
  caps : List Nat
  words : List Word
  deriving DecidableEq, Repr

/-- The program of no lines. -/
def Program.empty : Program := ⟨[], [], []⟩

/-- The handle of a declared buffer: handles are assigned to the `.buf` lines in order, from 0 (R89). Names that differ in
case are different names: DESIGN CHOICE, safe (log 9). -/
def Program.handle (p : Program) (name : List Char) : Except AsmError Nat :=
  if name ∈ p.names then .ok (p.names.idxOf name) else .error .unknownBuffer

/-- A format K line's command (R83, R89). -/
def Program.lineK (p : Program) (mk : Nat → Nat → Nat → Nat → Nat → Instr) :
    List (List Char) → Except AsmError Instr
  | [kb, koff, klen, cb, coff] => do
    return mk (← p.handle kb) (← numberValue koff) (← numberValue klen) (← p.handle cb) (← numberValue coff)
  | _ => .error .operandCount

/-- A format B line's command (R84, R89). -/
def Program.lineB (p : Program) (mk : Nat → Nat → Nat → Nat → Nat → Nat → Instr) :
    List (List Char) → Except AsmError Instr
  | [cb, coff, sb, soff, db, doff] => do
    return mk (← p.handle cb) (← numberValue coff) (← p.handle sb) (← numberValue soff) (← p.handle db)
      (← numberValue doff)
  | _ => .error .operandCount

/-- A line's command, from its operation and its operands. -/
def Program.line (p : Program) (op : Opcode) (ops : List (List Char)) : Except AsmError Instr :=
  match op with
  | .tinit => if ops.isEmpty then .ok .tinit else .error .operandCount
  | .cke => p.lineK .cke ops
  | .ckd => p.lineK .ckd ops
  | .ckeZ => p.lineK .ckeZ ops
  | .ckdZ => p.lineK .ckdZ ops
  | .enc => p.lineB .enc ops
  | .dec => p.lineB .dec ops

/-- The directive `.buf name, capacity`. -/
def Program.declare (p : Program) : List (List Char) → Except AsmError Program
  | [name, cap] => do
    let cap ← numberValue cap
    if name.isEmpty || decide (name ∈ p.names) then .error .badName
    else .ok { p with names := p.names ++ [name], caps := p.caps ++ [cap] }
  | _ => .error .operandCount

/-- The directive `.word value`: "emits the one word `value` as it stands". -/
def Program.emit (p : Program) : List (List Char) → Except AsmError Program
  | [value] => do return { p with words := p.words ++ [BitVec.ofNat 32 (← numberValue value)] }
  | _ => .error .operandCount

/-- One line of R89; mnemonics are case-insensitive. R89 does not say so of the directives `.buf` and `.word`, which are
taken in either case too: DESIGN CHOICE, safe (log 9). -/
def Program.add (p : Program) (text : List Char) : Except AsmError Program :=
  let cs := trimBlanks (withoutComment text)
  let name := (cs.takeWhile fun c => !isBlank c).map Char.toLower
  let ops := operandTexts (cs.dropWhile fun c => !isBlank c)
  if cs.isEmpty then .ok p
  else if name = ".buf".toList then p.declare ops
  else if name = ".word".toList then p.emit ops
  else
    match opcodeTable.find? fun r => r.mnemonic.toList.map Char.toLower == name with
    | none => .error .unknownMnemonic
    | some r => do return { p with words := p.words ++ encode (← p.line r.op ops) }

/-- A program from its lines. -/
def assemble (lines : List String) : Except AsmError Program :=
  lines.foldlM (fun p l => p.add l.toList) Program.empty

/-- A buffer that holds the given bytes. -/
def Buffer.ofBytes (bytes : List Byte) : Buffer := ⟨bytes.length, listed 0 bytes⟩

/-- The machine of 95_test_vectors.md Part 3: after reset, the program's buffers created and filled by the HOST, and the
program's words its actions to come. -/
def Program.start (p : Program) (contents : List (List Byte)) : State :=
  { State.reset with mem := contents.map Buffer.ofBytes, port := p.words.map HostEvent.word }

/-! ### The source's call forms (R90) -/

/-- A call form's expansion: buffers created after the `nbuf` there are, one command, and the handle of the buffer that
holds the result. -/
structure SourceCall where
  buffers : List Buffer
  command : Instr
  result : Nat
  deriving DecidableEq, Repr

/-- `cook_encrypt_key(key_bytes, offset, length)`, the validating API. -/
def callCookEncryptKey (nbuf key off len : Nat) : SourceCall :=
  ⟨[⟨Config.ckBytes, []⟩], .cke key off len nbuf 0, nbuf⟩

/-- `cook_decrypt_key(key_bytes, offset, length)`, the validating API. -/
def callCookDecryptKey (nbuf key off len : Nat) : SourceCall :=
  ⟨[⟨Config.ckBytes, []⟩], .ckd key off len nbuf 0, nbuf⟩

/-- `cook_encrypt_key`, the legacy-compatible entry point. -/
def callCookEncryptKeyLegacy (nbuf key off len : Nat) : SourceCall :=
  ⟨[⟨Config.ckBytes, []⟩], .ckeZ key off len nbuf 0, nbuf⟩

/-- `cook_decrypt_key`, the legacy-compatible entry point. -/
def callCookDecryptKeyLegacy (nbuf key off len : Nat) : SourceCall :=
  ⟨[⟨Config.ckBytes, []⟩], .ckdZ key off len nbuf 0, nbuf⟩

/-- `cook_key(raw_key, Encrypt)`: the whole buffer is the key. -/
def callCookKeyEncrypt (m : Memory) (key : Nat) : SourceCall := callCookEncryptKey m.length key 0 (m.cap key)

/-- `cook_key(raw_key, Decrypt)`. -/
def callCookKeyDecrypt (m : Memory) (key : Nat) : SourceCall := callCookDecryptKey m.length key 0 (m.cap key)

/-- `encrypt(cooked_key, key_offset, src, src_offset, dst, dst_offset)`. -/
def callEncrypt (ck koff src soff dst doff : Nat) : SourceCall := ⟨[], .enc ck koff src soff dst doff, dst⟩

/-- `decrypt(cooked_key, key_offset, src, src_offset, dst, dst_offset)`. -/
def callDecrypt (ck koff src soff dst doff : Nat) : SourceCall := ⟨[], .dec ck koff src soff dst doff, dst⟩

/-- `encrypt(schedule, round_count, input[16]) -> output[16]`: the schedule in a cooked-key buffer (41_key_schedule.md
R157), the block in and out of one buffer. For a round count above 255, more than 60 words, or an input that is not 16
bytes the form says nothing: DESIGN CHOICE, unsafe (log 11). -/
def callEncryptContract (nbuf : Nat) (schedule : List Word) (nr : Nat) (input : List Byte) : SourceCall :=
  ⟨[Buffer.ofBytes (cookedBytes schedule nr), Buffer.ofBytes input], .enc nbuf 0 (nbuf + 1) 0 (nbuf + 1) 0, nbuf + 1⟩

/-- `decrypt(schedule, round_count, input[16]) -> output[16]`, likewise (log 11). -/
def callDecryptContract (nbuf : Nat) (schedule : List Word) (nr : Nat) (input : List Byte) : SourceCall :=
  ⟨[Buffer.ofBytes (cookedBytes schedule nr), Buffer.ofBytes input], .dec nbuf 0 (nbuf + 1) 0 (nbuf + 1) 0, nbuf + 1⟩

end Sys2Proof.Machine
end

