-- ==== Sys2Proof/Tests/Slice0.lean ====
section
/-! SUPPORT. The model's own tests: the smoke test of `WellFormed`, the decoding of words written out from
30_encoding.md, small tests of each command with results from 95_test_vectors.md and the rules, and for every
obligation with hypotheses a witness that meets them. -/

namespace Sys2Proof.Tests

open Sys2Proof.Machine

set_option maxRecDepth 20000

/-! ### Helpers -/

/-- `n` bytes written as one hexadecimal number, the first byte most significant. -/
def hexBytes (n v : Nat) : List Byte := (List.range n).map fun i => BitVec.ofNat 8 (v >>> (8 * (n - 1 - i)))

/-- The reset machine with buffers that hold the given bytes. -/
def boot (contents : List (List Byte)) : State := { State.reset with mem := contents.map Buffer.ofBytes }

/-- What the HOST sees after an outcome that is a next state. -/
def seen (o : Host.Outcome State Fault Refusal) : Option HostView :=
  match o with
  | .next t => some t.hostView
  | .fault _ => none
  | .refused _ => none

/-- `RESULT` after an outcome. -/
def resultOf (o : Host.Outcome State Fault Refusal) : Option (BitVec 8) := (seen o).map HostView.result

/-- A slice of a buffer after an outcome. -/
def sliceOf (o : Host.Outcome State Fault Refusal) (b a n : Nat) : Option (List Byte) :=
  (seen o).map fun v => memRead v.mem b a n

/-- `0x30 .. 0x46` of vector V1: "0123456789ABCDEF". -/
def keyV1 : List Byte := hexBytes 16 0x30313233343536373839414243444546

/-- "Time is precious" of vector V1. -/
def plainV1 : List Byte := hexBytes 16 0x54696d652069732070726563696f7573

/-- The ciphertext of vector V1, the source's own. -/
def cipherV1 : List Byte := hexBytes 16 0xf39709df2cdb87424047ba4e286614b3

/-- The cooked key of vector V3. -/
def cookedV3 : List Byte :=
  hexBytes 32 0x303132333435363738394142434445462a5f68291e6a5e1e26531f5c65175a1a ++
  hexBytes 32 0xd8e1ca64c68b947ae0d88b2685cfd13c56df21f39054b589708c3eaff543ef93 ++
  hexBytes 32 0x4400fd15d454489ca4d87633519b99a040ee1dc494ba55583062236b61f9bacb ++
  hexBytes 32 0xf91a022b6da057735dc274183c3bced35b9164c0363133b36bf347ab57c88978 ++
  hexBytes 32 0x3336d89b0507eb286ef4ac83393c25fbc309d789c60e3ca1a8fa902291c6b5d9 ++
  hexBytes 16 0x41dce20887d2dea92f284e8bbeeefb52 ++
  List.replicate 64 0 ++ [0x0a]

/-- The cooked key of vector V4. -/
def cookedV4 : List Byte :=
  hexBytes 32 0x303132333435363738394142434445465c7d766362464a5ab56ae009c4009f69 ++
  hexBytes 32 0xa1d68666c390cc3c76fa2c35b2fab35c2d3deca7eead209b98570cae2aadbff2 ++
  hexBytes 32 0xa50e5f584ba37fc3d3f4736df959cc9f8a59399dc1fa465e120e3533eb57f9ac ++
  hexBytes 32 0x252e5190e4d417cef6da22fd1d8ddb511b0cf881ffd8ef4f0902cdb2148f16e3 ++
  hexBytes 32 0xf8339f1207eb705d0ee9bdef1a66ab0c44c06373432b132e4dc2aec157a405cd ++
  hexBytes 16 0x41dce20887d2dea92f284e8bbeeefb52 ++
  List.replicate 64 0 ++ [0x0a]

/-- Buffers for one cook command: a key, and 245 bytes of `0xee`. -/
def cookMachine (key : List Byte) : State := boot [key, List.replicate 245 0xee]

/-- Buffers for one block command: a cooked key, a block, and 20 bytes of `0xee`. -/
def blockMachine (ck block : List Byte) : State := boot [ck, block, List.replicate 20 0xee]

/-! ### WellFormed -/

theorem test_wellFormed_refuses_wide_handle : (Instr.cke (2 ^ 32) 0 16 1 0).wellFormed = false := by decide

theorem test_wellFormed_refuses_wide_last_operand : (Instr.dec 1 0 2 16 2 (2 ^ 32)).wellFormed = false := by decide

theorem test_wellFormed_accepts_largest_operands :
    (Instr.enc (2 ^ 32 - 1) (2 ^ 32 - 1) (2 ^ 32 - 1) (2 ^ 32 - 1) (2 ^ 32 - 1) (2 ^ 32 - 1)).wellFormed = true := by
  decide

/-! ### Decoding: words written out from R81 to R86, with operands that tell the words apart -/

theorem test_decode_tinit : decode [0x00000001, 0x00000010] = .ok (.tinit, [0x00000010]) := by decide

theorem test_decode_cke : decode [0x00000010, 1, 2, 3, 4, 5] = .ok (.cke 1 2 3 4 5, []) := by decide

theorem test_decode_ckd : decode [0x00000011, 1, 2, 3, 4, 5] = .ok (.ckd 1 2 3 4 5, []) := by decide

theorem test_decode_ckeZ : decode [0x00000018, 1, 2, 3, 4, 5] = .ok (.ckeZ 1 2 3 4 5, []) := by decide

theorem test_decode_ckdZ : decode [0x00000019, 1, 2, 3, 4, 5] = .ok (.ckdZ 1 2 3 4 5, []) := by decide

theorem test_decode_enc :
    decode [0x00000020, 1, 2, 3, 4, 5, 0xFFFFFFFF] = .ok (.enc 1 2 3 4 5 4294967295, []) := by decide

theorem test_decode_dec : decode [0x00000021, 1, 2, 3, 4, 5, 6] = .ok (.dec 1 2 3 4 5 6, []) := by decide

/-- `OPC = 0x20` with a reserved bit set (R87). -/
theorem test_decode_refuses_reserved_bits : decode [0x00000120, 1, 2, 3, 4, 5, 6] = .error .illegalCommand := by decide

theorem test_decode_refuses_short_packet : decode [0x00000020, 1, 2, 3, 4, 5] = .error .incomplete := by decide

/-- The operand words the table gives a row: bit 0 is bit 0 of `W0`, word `W1` is bits 63 to 32. -/
theorem test_decodeTableWord_places :
    decodeTableWord 192 0x000000050000000400000003000000020000000100000010 = some (.cke 1 2 3 4 5) := by decide

theorem test_decodeTableWord_short : decodeTableWord 32 0x20 = some (.enc 0 0 0 0 0 0) := by decide

/-! ### The step -/

/-- The step after `withFetchWord` on the reset machine runs the command (`TINIT` sets `TABLES_READY`). -/
theorem test_step_runs_fetched_word :
    (match step (State.reset.withFetchWord 32 0x01) with
      | .next t => some (t.tablesReady, t.result, t.port, t.received)
      | _ => none) = some (true, 0, [], 0) := by decide +kernel

/-- A word that is not the last only waits (R88). -/
theorem test_step_waits_for_packet :
    (match step { State.reset with port := [.word 0x20, .word 7] } with
      | .next t => some (t.received, t.cw.w0, t.tablesReady, t.port)
      | _ => none) = some (1, 0x20, false, [.word 7]) := by decide +kernel

theorem test_step_illegal_word :
    resultOf (step { State.reset with port := [.word 0x00000122] }) = some 5 := by decide +kernel

/-! ### The assembler (R89) -/

/-- The first two command lines of program P1. -/
theorem test_assemble_P1 :
    (assemble [".buf key, 16", ".buf ck, 241", ".buf io, 16", "tinit", "cke   key, 0, 16, ck, 0 ; cook"]).map
      (fun p => (p.caps, p.words)) =
    .ok ([16, 241, 16], [0x00000001, 0x00000010, 0x00000000, 0x00000000, 0x00000010, 0x00000001, 0x00000000]) := by
  decide

theorem test_assemble_refuses_undeclared_buffer :
    (assemble ["tinit", "CKD.Z k, 0, 0x18, k, 0"]).map Program.words = .error .unknownBuffer := by decide

/-! ### TINIT -/

theorem test_tinit_clears_result :
    (match exec .tinit { State.reset with result := 4 } with
      | .next t => some (t.result, t.tablesReady, t.mem)
      | _ => none) = some (0, true, State.reset.mem) := by decide +kernel

/-! ### The cook commands -/

/-- Words 4 and 43 of vector V3, the tail, the round count, and the bytes after the 241. -/
theorem test_cke_V3 :
    let o := exec (.cke 0 0 16 1 2) (cookMachine keyV1)
    sliceOf o 1 18 4 = some [0x2a, 0x5f, 0x68, 0x29] ∧ sliceOf o 1 174 5 = some [0xbe, 0xee, 0xfb, 0x52, 0x00] ∧
      sliceOf o 1 241 4 = some [0x00, 0x0a, 0xee, 0xee] := by decide +kernel

/-- `KOFF = cap(KB) - 15` with `KLEN = 16`: the slice ends past the last byte (R158). -/
theorem test_cke_key_out_of_range : resultOf (exec (.cke 0 1 16 1 0) (cookMachine keyV1)) = some 3 := by decide +kernel

/-- Word 4 of vector V4, and its last group, which is that of V3. -/
theorem test_ckd_V4 :
    let o := exec (.ckd 0 0 16 1 0) (cookMachine keyV1)
    sliceOf o 1 16 4 = some [0x5c, 0x7d, 0x76, 0x63] ∧ sliceOf o 1 144 4 = some [0x44, 0xc0, 0x63, 0x73] ∧
      sliceOf o 1 160 4 = some [0x41, 0xdc, 0xe2, 0x08] := by decide +kernel

theorem test_ckd_bad_length : resultOf (exec (.ckd 0 0 15 1 0) (cookMachine keyV1)) = some 1 := by decide +kernel

/-- The source's 5-byte key: all zeros, and `RESULT = 0` (R160). -/
theorem test_ckeZ_zero_fill :
    let o := exec (.ckeZ 0 0 5 1 0) (cookMachine [1, 2, 3, 4, 5])
    resultOf o = some 0 ∧ sliceOf o 1 238 4 = some [0, 0, 0, 0xee] := by decide +kernel

/-- A legal length whose slice does not fit is zero-filled too (R160). -/
theorem test_ckeZ_zero_fill_out_of_range :
    let o := exec (.ckeZ 0 0 24 1 0) (cookMachine keyV1)
    resultOf o = some 0 ∧ sliceOf o 1 0 4 = some [0, 0, 0, 0] := by decide +kernel

theorem test_ckdZ_zero_fill :
    let o := exec (.ckdZ 0 0 17 1 4) (cookMachine keyV1)
    resultOf o = some 0 ∧ sliceOf o 1 3 2 = some [0xee, 0] := by decide +kernel

theorem test_ckdZ_destination_out_of_range :
    resultOf (exec (.ckdZ 0 0 17 1 5) (cookMachine keyV1)) = some 3 := by decide +kernel

/-! ### The block commands -/

/-- The source's known answer (V1), at an offset: the bytes around the 16 stay. -/
theorem test_enc_V1 :
    let o := exec (.enc 0 0 1 0 2 2) (blockMachine cookedV3 plainV1)
    resultOf o = some 0 ∧ sliceOf o 2 2 16 = some cipherV1 ∧ sliceOf o 2 0 2 = some [0xee, 0xee] ∧
      sliceOf o 2 18 2 = some [0xee, 0xee] := by decide +kernel

/-- `SOFF = cap(SB)` is a short slice, one more is past the end (R189 (g)). -/
theorem test_enc_source_at_end :
    resultOf (exec (.enc 0 0 1 16 2 0) (blockMachine cookedV3 plainV1)) = some 2 ∧
      resultOf (exec (.enc 0 0 1 17 2 0) (blockMachine cookedV3 plainV1)) = some 3 := by decide +kernel

/-- The source's second known answer (V2), in place. -/
theorem test_dec_V2 :
    let o := exec (.dec 0 0 1 0 1 0) (blockMachine cookedV4 cipherV1)
    resultOf o = some 0 ∧ sliceOf o 1 0 16 = some plainV1 := by decide +kernel

/-- A zero-filled cooked key decrypts nothing (R189 (c)). -/
theorem test_dec_zero_key :
    resultOf (exec (.dec 0 0 1 0 2 0) (blockMachine (List.replicate 241 0) cipherV1)) = some 4 := by decide +kernel

/-! ### Witnesses: for every obligation with hypotheses, a state and operands that meet all of them -/

/-- `DecodeOfEncodeIsIdentity`. -/
theorem test_witness_DecodeOfEncode : (Instr.enc 1 0 2 4294967295 2 0).wellFormed = true := by decide

/-- `AcceptedWordsAreThePacket`. -/
theorem test_witness_AcceptedWords :
    decode [0x00000018, 0, 3, 5, 1, 0xFFFFFFFF, 9] = .ok (.ckeZ 0 3 5 1 4294967295, [9]) := by decide

/-- `IllegalWordFaultsAlone`. -/
theorem test_witness_IllegalWord :
    let s : State := { State.reset with port := [.word 0x00000120, .reset] }
    s.port = .word 0x00000120 :: [.reset] ∧ s.received = 0 ∧
      (0x00000120 : Word) ∉
        ([0x00000001, 0x00000010, 0x00000011, 0x00000018, 0x00000019, 0x00000020, 0x00000021] : List Word) := by
  decide

/-- `PacketLengthDecidesStart`, its waiting clause: the fifth word of six. -/
theorem test_witness_PacketLength_waits :
    let s : State := { State.reset with port := [.word 1], received := 4, cw := ⟨0x10, 0, 0, 16, 0, 0, 0⟩ }
    s.port = .word 1 :: [] ∧ s.received + 1 < packetLen (s.cw.put s.received 1).w0 := by decide

/-- `PacketLengthDecidesStart`, its starting clause, and `StepRunsDecodedCommand`: the sixth word of six. -/
theorem test_witness_StepRunsDecodedCommand :
    let s : State := { State.reset with port := [.word 7], received := 5, cw := ⟨0x10, 0, 0, 16, 1, 0, 0⟩ }
    s.port = .word 7 :: [] ∧ packetLen (s.cw.put s.received 7).w0 ≤ s.received + 1 ∧
      decode ((s.cw.put s.received 7).words (s.received + 1)) = .ok (.cke 0 0 16 1 7, []) := by decide

/-- `DeliveredPacketRunsCommand`. -/
theorem test_witness_DeliveredPacket :
    let i := Instr.dec 1 0 2 16 2 32
    let s : State := { State.reset with port := (encode i).map HostEvent.word ++ [.reset] }
    i.wellFormed = true ∧ s.received = 0 ∧ s.port = (encode i).map HostEvent.word ++ [.reset] := by decide

/-- `ResetLeavesCoreIdle`. -/
theorem test_witness_Idle : State.reset.port = [] := by decide

/-- `HostResetKeepsBuffers`. -/
theorem test_witness_HostReset :
    ({ State.reset with port := [.reset] } : State).port = .reset :: [] := by decide

/-- `HostWriteChangesOneByte`, its first clause: the last byte of the last buffer. -/
theorem test_witness_HostWrite_last_byte :
    let s : State := { State.reset with port := [.poke 7 4095 0xab] }
    s.port = .poke 7 4095 0xab :: [] ∧ 7 < s.mem.length ∧ 4095 < s.mem.cap 7 := by decide

/-- `HostWriteChangesOneByte`, its second clause: the byte after it, and the buffer after it. -/
theorem test_witness_HostWrite_past_end :
    let s := State.reset
    ¬ (7 < s.mem.length ∧ 4096 < s.mem.cap 7) ∧ ¬ (8 < s.mem.length ∧ 0 < s.mem.cap 8) := by decide

/-- `MemWriteSetsExactlyItsBytes`: a slice that ends at the last byte. -/
theorem test_witness_MemWrite :
    2 < State.reset.mem.length ∧ inRange State.reset.mem 2 4094 [1, 2].length := by decide

/-- `EqualBytesMakeEqualMemories`: a memory with a listed byte. -/
theorem test_witness_EqualBytes :
    let m := (boot [[1, 0, 2]]).mem
    m.wf ∧ Memory.shape m = Memory.shape m ∧ ∀ b a, m.byte? b a = m.byte? b a :=
  ⟨by decide, rfl, fun _ _ => rfl⟩

/-- `StepKeepsInvariant`: the last word of a zero-filling packet, from a state that meets the invariant. -/
theorem test_witness_StepKeepsInvariant :
    let s : State :=
      { cookMachine [1] with port := [.word 4], received := 5, cw := ⟨0x18, 0, 0, 5, 1, 0, 0⟩ }
    s.Inv ∧ ∃ t, step s = .next t := ⟨by decide, _, rfl⟩

/-- `StepKeepsBufferShape` and `TablesReadyStaysSet`. -/
theorem test_witness_TablesReady :
    let s : State := { cookMachine [1] with tablesReady := true, port := [.word 1] }
    (∃ t, step s = .next t) ∧ s.tablesReady = true ∧ ∀ rest, s.port ≠ .reset :: rest :=
  ⟨⟨_, rfl⟩, rfl, fun rest h => by simp at h⟩

/-- `ChangedByteLiesInWindow`: a byte that a zero-fill changes. -/
theorem test_witness_ChangedByte :
    sliceOf (exec (.ckeZ 0 0 5 1 4) (cookMachine [1])) 1 244 1 = some [0] ∧
      (cookMachine [1]).mem.byte? 1 244 = some 0xee := by decide +kernel

/-- `CommandFrame` and `EachFaultCodeHasItsCause`: a command that answers a next state. -/
theorem test_witness_CommandFrame : ∃ t, exec (.enc 0 0 1 0 2 2) (blockMachine cookedV3 plainV1) = .next t :=
  ⟨_, rfl⟩

/-- `FaultWritesNoBuffer`. -/
theorem test_witness_Fault :
    ∃ t, exec (.cke 0 0 5 1 0) (cookMachine [1]) = .next t ∧ t.result ≠ 0 := ⟨_, rfl, by decide⟩

/-- `EachFaultCodeHasItsCause`, a state for each code: 5 from the first handle past the last buffer, 1 just past a legal
length, 2 and 3 on either side of the capacity, 4 from a round count just past a legal one. -/
theorem test_witness_EachFaultCode :
    resultOf (exec (.cke 2 0 16 1 0) (cookMachine keyV1)) = some 5 ∧
      resultOf (exec (.cke 0 0 17 1 0) (cookMachine keyV1)) = some 1 ∧
      resultOf (exec (.dec 0 0 1 0 2 20) (blockMachine cookedV4 cipherV1)) = some 2 ∧
      resultOf (exec (.dec 0 0 1 0 2 21) (blockMachine cookedV4 cipherV1)) = some 3 ∧
      resultOf (exec (.enc 0 0 1 0 2 0) (blockMachine (List.replicate 240 0 ++ [0x0b]) plainV1)) = some 4 := by
  decide +kernel

/-- `HiddenStateIsUnobservable`: two states that differ in everything hidden. -/
theorem test_witness_HiddenState :
    let s : State := cookMachine keyV1
    let s' : State := { s with result := 3, tablesReady := true, draws := 9, scratch := { s.scratch with nr := 7 } }
    s.mem = s'.mem ∧ s ≠ s' := by decide +kernel

/-- `BadHandleFaultsFirst`: the first handle that names no buffer. -/
theorem test_witness_BadHandle :
    ∃ h ∈ handlesOf (.enc 0 0 1 0 8 0), State.reset.mem.length ≤ h := by decide

/-- `EncScheduleFollowsRecurrence`, `DecScheduleTransformsInnerGroups`, `CookedKeyLayout`, `CookedKeysAreWellFormed`: a
key of each legal length. -/
theorem test_witness_legal_keys :
    legalKeyLen keyV1.length ∧ legalKeyLen (List.replicate 24 (0 : Byte)).length ∧
      legalKeyLen (List.replicate 32 (0xff : Byte)).length := by decide

/-- `DecScheduleTransformsInnerGroups`: the first and the last group; `MixColumnsRecoversEncSchedule`: the first and the
last word it speaks of. -/
theorem test_witness_groups :
    0 ≤ roundCount keyV1.length ∧ 10 ≤ roundCount keyV1.length ∧ 4 ≤ 39 ∧ 39 < 4 * roundCount keyV1.length := by decide

/-- `CkeWritesEncryptionKey`, `CkdWritesDecryptionKey`, `CkeZWritesKeyOrZeros`, `CkdZWritesKeyOrZeros`: a key and a
destination that end at their buffers' last bytes. -/
theorem test_witness_Cook :
    let m := (cookMachine keyV1).mem
    0 < m.length ∧ 1 < m.length ∧ legalKeyLen 16 ∧ inRange m 0 0 16 ∧ inRange m 1 4 241 := by decide +kernel

/-- `CkeZWritesKeyOrZeros` and `CkdZWritesKeyOrZeros`, their zero case: an illegal length; a legal one out of range. -/
theorem test_witness_CookZ :
    let m := (cookMachine keyV1).mem
    ¬ (legalKeyLen 17 ∧ inRange m 0 0 17) ∧ ¬ (legalKeyLen 16 ∧ inRange m 0 1 16) := by decide +kernel

/-- `ValidatingCookFaultOrder`, clause by clause at the boundary. -/
theorem test_witness_CookFaults :
    let m := (cookMachine keyV1).mem
    0 < m.length ∧ 1 < m.length ∧ ¬ legalKeyLen 15 ∧ (legalKeyLen 16 ∧ ¬ inRange m 0 1 16) ∧
      (legalKeyLen 16 ∧ inRange m 0 0 16 ∧ ¬ inRange m 1 5 241) := by decide +kernel

/-- `CompatCookFaultsOnDestination`: a destination that just fits, and one that just does not. -/
theorem test_witness_CompatCook :
    let m := (cookMachine keyV1).mem
    0 < m.length ∧ 1 < m.length ∧ inRange m 1 4 241 ∧ ¬ inRange m 1 5 241 ∧
      ∃ t, exec (.ckdZ 0 0 17 1 4) (cookMachine keyV1) = .next t :=
  ⟨by decide, by decide, by decide +kernel, by decide +kernel, _, rfl⟩

/-- `ZeroFilledKeyNeverEncrypts`, the operands that its two cases of a bad key share. -/
theorem test_witness_ZeroFilledKey :
    let s := blockMachine (List.replicate 241 0xee) plainV1
    0 < s.mem.length ∧ 1 < s.mem.length ∧ 2 < s.mem.length ∧ inRange s.mem 0 0 241 ∧ inRange s.mem 1 0 16 ∧
      inRange s.mem 2 4 16 :=
  ⟨by decide, by decide, by decide, by decide +kernel, by decide +kernel, by decide +kernel⟩

/-- `ZeroFilledKeyNeverEncrypts`, an illegal length. -/
theorem test_witness_ZeroFilledKey_length :
    let s := blockMachine (List.replicate 241 0xee) plainV1
    ¬ (legalKeyLen 5 ∧ inRange s.mem 1 0 5) ∧ ∃ t, exec (.ckeZ 1 0 5 0 0) s = .next t :=
  ⟨by decide +kernel, _, rfl⟩

/-- `ZeroFilledKeyNeverEncrypts`, a legal length whose slice ends one byte past its buffer. -/
theorem test_witness_ZeroFilledKey_slice :
    let s := blockMachine (List.replicate 241 0xee) plainV1
    legalKeyLen 16 ∧ ¬ (legalKeyLen 16 ∧ inRange s.mem 1 1 16) ∧ ∃ t, exec (.ckdZ 1 1 16 0 0) s = .next t :=
  ⟨by decide, by decide +kernel, _, rfl⟩

/-- `EncWritesEncryptedBlock` and `DecWritesDecryptedBlock`: slices that end at their buffers' last bytes. -/
theorem test_witness_Block :
    let m := (blockMachine cookedV3 plainV1).mem
    0 < m.length ∧ 1 < m.length ∧ 2 < m.length ∧ inRange m 0 0 241 ∧ inRange m 1 0 16 ∧ inRange m 2 4 16 ∧
      legalNr ((memRead m 0 0 241).getD 240 0) := by decide +kernel

/-- `BlockFaultOrder`, clause by clause at the boundary. -/
theorem test_witness_BlockFaults :
    let m := (blockMachine cookedV3 plainV1).mem
    m.cap 0 < 1 + 241 ∧
      (0 + 241 ≤ m.cap 0 ∧ m.cap 1 < 17) ∧
      (0 + 241 ≤ m.cap 0 ∧ 16 ≤ m.cap 1 ∧ m.cap 1 < 16 + 16) ∧
      (0 + 241 ≤ m.cap 0 ∧ 0 + 16 ≤ m.cap 1 ∧ m.cap 2 < 21) ∧
      (0 + 241 ≤ m.cap 0 ∧ 0 + 16 ≤ m.cap 1 ∧ 5 ≤ m.cap 2 ∧ m.cap 2 < 5 + 16) := by decide +kernel

/-- `RoundCountMismatchFaults`: a round count between two legal ones. -/
theorem test_witness_RoundCount :
    let m := (blockMachine (List.replicate 240 0 ++ [0x0d]) plainV1).mem
    0 < m.length ∧ 1 < m.length ∧ 2 < m.length ∧ inRange m 0 0 241 ∧ inRange m 1 0 16 ∧ inRange m 2 0 16 ∧
      ¬ legalNr ((memRead m 0 0 241).getD 240 0) := by decide +kernel

/-- `UnusedTailIsIgnored`: two cooked keys that differ in the first byte of the tail. -/
theorem test_witness_UnusedTail :
    let ck := cookedV3
    let ck' := cookedV3.set 176 0xff
    ck ≠ ck' ∧ ck.getD 240 0 = ck'.getD 240 0 ∧ ∀ j, j < 16 * (cookedNr ck + 1) → ck.getD j 0 = ck'.getD j 0 := by
  decide +kernel

/-- `DecryptUndoesEncrypt`. -/
theorem test_witness_DecryptUndoes : legalKeyLen keyV1.length ∧ plainV1.length = 16 := by decide

/-- `EncryptionIsBijective`: the cooked key of vector V3 is well formed. -/
theorem test_witness_Bijective : WellCookedEnc cookedV3 ∧ cipherV1.length = 16 := by decide +kernel

/-- `CommandRoundTrip`: the layout of program P2. -/
theorem test_witness_CommandRoundTrip :
    let m := (boot [List.replicate 640 0]).mem
    (∀ h ∈ [0, 0, 0, 0, 0, 0], h < m.length) ∧ legalKeyLen 16 ∧ inRange m 0 5 16 ∧ inRange m 0 64 241 ∧
      inRange m 0 352 241 ∧ inRange m 0 41 16 ∧ inRange m 0 320 16 ∧ inRange m 0 600 16 ∧
      DisjointSlices 0 5 16 0 64 241 ∧ DisjointSlices 0 64 241 0 352 241 ∧ DisjointSlices 0 41 16 0 64 241 ∧
      DisjointSlices 0 41 16 0 352 241 ∧ DisjointSlices 0 64 241 0 320 16 ∧ DisjointSlices 0 352 241 0 320 16 := by
  decide +kernel

/-- `RoundStepsByByte` and `WordFunctionsActOnBytes`: the last row and column. -/
theorem test_witness_rows : 3 < 4 ∧ (0x53 : Byte) ≠ 0 := by decide

end Sys2Proof.Tests
end

/-! ## What a step can do (10_state.md R31, R37; notes/assumptions 1)

One equation for each HOST action, then one inversion lemma that says all of them. -/

namespace Sys2Proof.Machine

/-! ### One step, by the HOST's next action -/

theorem step_of_idle {s : State} (h : s.port = []) : step s = .next s := by
  simp [step, h]

theorem step_of_word {s : State} {w : Word} {rest : List HostEvent} (h : s.port = .word w :: rest) :
    step s = deliver w { s with port := rest } := by
  simp [step, h]

theorem step_of_poke {s : State} {b a : Nat} {v : Byte} {rest : List HostEvent} (h : s.port = .poke b a v :: rest) :
    step s = hostPoke b a v { s with port := rest } := by
  simp [step, h]

theorem step_of_reset {s : State} {rest : List HostEvent} (h : s.port = .reset :: rest) :
    step s = .next (hostReset { s with port := rest }) := by
  simp [step, h]

/-! ### A packet word arrives (30_encoding.md R88) -/

/-- The word does not complete the packet: it is only placed in its register of `CW`. -/
theorem step_of_incomplete_packet {s : State} {w : Word} {rest : List HostEvent} (hp : s.port = .word w :: rest)
    (hn : s.received + 1 < packetLen (s.cw.put s.received w).w0) :
    step s = .next { s with port := rest, cw := s.cw.put s.received w, received := s.received + 1 } := by
  rw [step_of_word hp]
  exact if_pos hn

/-- The word completes the packet: the whole packet is issued. -/
theorem step_of_complete_packet {s : State} {w : Word} {rest : List HostEvent} (hp : s.port = .word w :: rest)
    (hn : packetLen (s.cw.put s.received w).w0 ≤ s.received + 1) :
    step s = issue ((s.cw.put s.received w).words (s.received + 1))
      { s with port := rest, cw := s.cw.put s.received w, received := 0 } := by
  rw [step_of_word hp]
  exact if_neg (Nat.not_lt.2 hn)

theorem issue_of_decode {packet : List Word} {i : Instr} {ws : List Word} (h : decode packet = .ok (i, ws))
    (s : State) : issue packet s = exec i s := by
  simp [issue, h]

/-! ### The inversion of a step -/

/-- A HOST write that does not stop the model writes one byte that exists (70_reset_and_hazards.md R282). -/
theorem hostPoke_eq_next {b a : Nat} {v : Byte} {s t : State} (h : hostPoke b a v s = .next t) :
    (s.mem.byte? b a).isSome ∧ t = { s with mem := memWrite s.mem b a [v] } := by
  unfold hostPoke at h
  split at h
  · cases h
  · next hb => cases h; exact ⟨by simp [hb], rfl⟩

/-- What one step that answers a next state can have done, by the HOST action it took (log 1). -/
inductive StepEffect (s : State) : State → Prop where
  | idle (hp : s.port = []) : StepEffect s s
  | placed (w : Word) (rest : List HostEvent) (hp : s.port = .word w :: rest)
      (hn : s.received + 1 < packetLen (s.cw.put s.received w).w0) :
      StepEffect s { s with port := rest, cw := s.cw.put s.received w, received := s.received + 1 }
  | ran (w : Word) (rest : List HostEvent) (i : Instr) (t : State) (hp : s.port = .word w :: rest)
      (he : exec i { s with port := rest, cw := s.cw.put s.received w, received := 0 } = .next t) : StepEffect s t
  | illegal (w : Word) (rest : List HostEvent) (hp : s.port = .word w :: rest) :
      StepEffect s
        (State.faulted .illegalCommand { s with port := rest, cw := s.cw.put s.received w, received := 0 })
  | poked (b a : Nat) (v : Byte) (rest : List HostEvent) (hp : s.port = .poke b a v :: rest)
      (hb : (s.mem.byte? b a).isSome) : StepEffect s { s with port := rest, mem := memWrite s.mem b a [v] }
  | reset (rest : List HostEvent) (hp : s.port = .reset :: rest) : StepEffect s (hostReset { s with port := rest })

/-- What a step can do, said once. -/
theorem stepEffect_of_step {s t : State} (h : step s = .next t) : StepEffect s t := by
  match hp : s.port with
  | [] =>
    rw [step_of_idle hp] at h
    cases h
    exact .idle hp
  | .word w :: rest =>
    rw [step_of_word hp] at h
    obtain ⟨hn, hd⟩ | ⟨i, hd⟩ | hd := deliver_cases w { s with port := rest }
    · rw [hd] at h
      cases h
      exact .placed w rest hp hn
    · exact .ran w rest i t hp (hd.symm.trans h)
    · rw [hd] at h
      cases h
      exact .illegal w rest hp
  | .poke b a v :: rest =>
    rw [step_of_poke hp] at h
    obtain ⟨hb, rfl⟩ := hostPoke_eq_next h
    exact .poked b a v rest hp hb
  | .reset :: rest =>
    rw [step_of_reset hp] at h
    cases h
    exact .reset rest hp

/-! ### The statements about one step -/

/-- Settles O6: the completed packet is issued, and issuing a packet that decodes runs its command. -/
theorem stepRunsDecodedCommand : Obligations.StepRunsDecodedCommand := by
  intro s w rest i hp hn hd
  rw [step_of_complete_packet hp hn, issue_of_decode hd]

/-- Settles O8: the reset values by definition, the idle step by `step_of_idle`. -/
theorem resetLeavesCoreIdle : Obligations.ResetLeavesCoreIdle :=
  ⟨rfl, rfl, rfl, fun _ => step_of_idle⟩

/-- Settles O9: the step is `hostReset`, whose fields `Laws/State` names. -/
theorem hostResetKeepsBuffers : Obligations.HostResetKeepsBuffers :=
  fun _ _ hp => ⟨_, step_of_reset hp, hostReset_result _, hostReset_tablesReady _, hostReset_received _,
    hostReset_mem _, hostReset_port _⟩

/-- Settles O14: the reset memory is canonical, `RESULT` is 0 and no word has been received. -/
theorem resetMeetsInvariant : Obligations.ResetMeetsInvariant :=
  ⟨reset_mem_wf, by decide, .inl rfl⟩

/-- No command clears `TABLES_READY`: it keeps the flag where decode refuses a handle, and sets it otherwise. -/
theorem exec_keeps_tablesReady {i : Instr} {s t : State} (h : exec i s = .next t) (hs : s.tablesReady = true) :
    t.tablesReady = true := by
  cases ending_of_exec h with
  | badHandle => exact hs
  | fault => rfl
  | noWrite => rfl
  | write => rfl

/-- Settles O21: of the ways a step can end, only the HOST's reset clears `TABLES_READY`. -/
theorem tablesReadyStaysSet : Obligations.TablesReadyStaysSet := by
  intro s t h hs hreset
  cases stepEffect_of_step h with
  | idle => exact hs
  | placed => exact hs
  | ran w rest i _ hp he => exact exec_keeps_tablesReady he hs
  | illegal => exact hs
  | poked => exact hs
  | reset rest hp => exact absurd hp (hreset rest)

end Sys2Proof.Machine

/-! ## From a packet to its command (30_encoding.md R80 to R88) -/

namespace Sys2Proof

/-! ### The decoder on an encoded packet: which operands a command word selects (R86), then the operands read back -/

theorem decode_cke_word (ws : List Word) : decode (0x00000010 :: ws) = decodeK .cke ws := rfl
theorem decode_ckd_word (ws : List Word) : decode (0x00000011 :: ws) = decodeK .ckd ws := rfl
theorem decode_ckeZ_word (ws : List Word) : decode (0x00000018 :: ws) = decodeK .ckeZ ws := rfl
theorem decode_ckdZ_word (ws : List Word) : decode (0x00000019 :: ws) = decodeK .ckdZ ws := rfl
theorem decode_enc_word (ws : List Word) : decode (0x00000020 :: ws) = decodeB .enc ws := rfl
theorem decode_dec_word (ws : List Word) : decode (0x00000021 :: ws) = decodeB .dec ws := rfl

/-- The operands of a format K packet, read back (R83, R85). -/
theorem decodeK_map_ofNat (mk : Nat → Nat → Nat → Nat → Nat → Instr) {kb koff klen cb coff : Nat} (rest : List Word)
    (h : ∀ v ∈ [kb, koff, klen, cb, coff], v < Config.operandBound) :
    decodeK mk ([kb, koff, klen, cb, coff].map (BitVec.ofNat 32) ++ rest) =
      .ok (mk kb koff klen cb coff, rest) := by
  simp only [List.forall_mem_cons, Config.operandBound, Nat.reducePow] at h
  simp [decodeK, Nat.mod_eq_of_lt, h]

/-- The operands of a format B packet, read back (R84, R85). -/
theorem decodeB_map_ofNat (mk : Nat → Nat → Nat → Nat → Nat → Nat → Instr) {cb coff sb soff db doff : Nat}
    (rest : List Word) (h : ∀ v ∈ [cb, coff, sb, soff, db, doff], v < Config.operandBound) :
    decodeB mk ([cb, coff, sb, soff, db, doff].map (BitVec.ofNat 32) ++ rest) =
      .ok (mk cb coff sb soff db doff, rest) := by
  simp only [List.forall_mem_cons, Config.operandBound, Nat.reducePow] at h
  simp [decodeB, Nat.mod_eq_of_lt, h]

theorem wellFormed_iff (i : Instr) : i.wellFormed = true ↔ ∀ v ∈ i.operands, v < Config.operandBound := by
  simp [Instr.wellFormed]

/-- Decoding the packet of a well-formed command gives that command and leaves the words after it. -/
theorem decode_encode_append {i : Instr} (h : i.wellFormed = true) (rest : List Word) :
    decode (encode i ++ rest) = .ok (i, rest) := by
  rw [wellFormed_iff] at h
  cases i with
  | tinit => rfl
  | cke => exact (decode_cke_word _).trans (decodeK_map_ofNat .cke rest h)
  | ckd => exact (decode_ckd_word _).trans (decodeK_map_ofNat .ckd rest h)
  | ckeZ => exact (decode_ckeZ_word _).trans (decodeK_map_ofNat .ckeZ rest h)
  | ckdZ => exact (decode_ckdZ_word _).trans (decodeK_map_ofNat .ckdZ rest h)
  | enc => exact (decode_enc_word _).trans (decodeB_map_ofNat .enc rest h)
  | dec => exact (decode_dec_word _).trans (decodeB_map_ofNat .dec rest h)

namespace Machine

/-! ### The registers `CW` as the words arrive (10_state.md R31) -/

/-- The command word in `CW` is the first word placed. -/
theorem packet_load_w0 (p : Packet) (n : Nat) (ws : List Word) : (p.load (n + 1) ws).w0 = ws.getD 0 0 := by
  induction n with
  | zero => rfl
  | succ n ih => rw [Packet.load, packet_put_w0 _ n.succ_ne_zero, ih]

/-- The words received are the words placed. -/
theorem packet_load_words (p : Packet) {n : Nat} {ws : List Word} (h7 : n ≤ 7) (hn : n ≤ ws.length) :
    (p.load n ws).words n = ws.take n := by
  induction n with
  | zero => simp [Packet.words]
  | succ n ih =>
    rw [Packet.load, packet_put_words _ h7, ih (by omega) (by omega), List.getD_eq_getElem _ _ hn,
      List.take_concat_get' _ _ hn]

/-! ### Word by word -/

/-- A run whose first `n` steps are known, one step further. -/
theorem host_run_succ_of_next {M : Host.Core} {n : Nat} {s t : M.State} (h : M.run n s = .next t) :
    M.run (n + 1) s = M.step t := by
  induction n generalizing s with
  | zero =>
    cases h
    rw [Host.Core.run]
    cases hs : M.step t <;> rfl
  | succ n ih =>
    rw [Host.Core.run] at h ⊢
    cases hs : M.step s with
    | next s' => rw [hs] at h; exact ih h
    | fault r => rw [hs] at h; cases h
    | refused r => rw [hs] at h; cases h

theorem run_succ_of_next {n : Nat} {s t : State} (h : core.run n s = .next t) : core.run (n + 1) s = step t :=
  host_run_succ_of_next h

/-- While the packet is incomplete, each step only places the next word in `CW` (R88). -/
theorem run_places_words {s : State} {ws : List Word} {rest : List HostEvent} (hs : s.received = 0)
    (hp : s.port = ws.map HostEvent.word ++ rest) {n : Nat} (hn : n < packetLen (ws.getD 0 0))
    (hl : n ≤ ws.length) :
    core.run n s = .next { s with
      port := (ws.drop n).map HostEvent.word ++ rest
      cw := s.cw.load n ws
      received := n } := by
  induction n with
  | zero =>
    cases s
    simp only at hs hp
    subst hs hp
    rfl
  | succ n ih =>
    rw [run_succ_of_next (ih (by omega) (by omega)),
      step_of_incomplete_packet (w := ws.getD n 0) (rest := (ws.drop (n + 1)).map HostEvent.word ++ rest)]
    · rfl
    · rw [List.drop_eq_getElem_cons hl, List.getD_eq_getElem _ _ hl]; rfl
    · show n + 1 < packetLen (s.cw.load (n + 1) ws).w0
      rwa [packet_load_w0]

/-- A packet whose words are all pending is issued whole by its last word (R88). -/
theorem run_issues_packet {s : State} {ws : List Word} {rest : List HostEvent} (hs : s.received = 0)
    (hp : s.port = ws.map HostEvent.word ++ rest) (hl : ws.length = packetLen (ws.getD 0 0)) :
    core.run ws.length s =
      issue ws { s with port := rest, cw := s.cw.load ws.length ws, received := 0 } := by
  obtain ⟨n, hn⟩ : ∃ n, ws.length = n + 1 := Nat.exists_eq_add_one.2 (hl ▸ packetLen_pos _)
  have hw : (s.cw.load (n + 1) ws).words (n + 1) = ws := by
    rw [packet_load_words _ (by rw [← hn, hl]; exact packetLen_le_seven _) hn.ge, ← hn, List.take_length]
  rw [hn, run_succ_of_next (run_places_words hs hp (by omega) (by omega)),
    step_of_complete_packet (w := ws.getD n 0) (rest := rest)]
  · exact congrArg (issue · _) hw
  · have hlt : n < ws.length := by omega
    rw [List.drop_eq_getElem_cons hlt, List.getD_eq_getElem _ _ hlt, ← hn, List.drop_length]; rfl
  · show packetLen (s.cw.load (n + 1) ws).w0 ≤ n + 1
    rw [packet_load_w0]; omega

/-- Settles O7: the packet's length is the one its first word announces, so its last word issues it whole, and the
decoder gives the command back. -/
theorem deliveredPacketRunsCommand : Obligations.DeliveredPacketRunsCommand := by
  intro s i rest hwf hs hp
  have hd : decode (encode i) = .ok (i, []) := by simpa using decode_encode_append hwf []
  rw [run_issues_packet hs hp (by simp [encode]), issue_of_decode hd]

end Machine
end Sys2Proof

/-! ## What the HOST sees (10_state.md R29 to R32) -/

namespace Sys2Proof.Machine

/-- Two outcomes are next states that show the HOST the same. -/
def SameHostView (o o' : Host.Outcome State Fault Refusal) : Prop :=
  ∃ t t', o = .next t ∧ o' = .next t' ∧ t.hostView = t'.hostView

theorem sameHostView_next {t t' : State} (hm : t.mem = t'.mem) (hr : t.result = t'.result) :
    SameHostView (.next t) (.next t') :=
  ⟨t, t', rfl, rfl, by simp [State.hostView, hm, hr]⟩

theorem sameHostView_faulted {s s' : State} (hm : s.mem = s'.mem) (f : FaultCode) :
    SameHostView (.next (s.faulted f)) (.next (s'.faulted f)) :=
  sameHostView_next hm rfl

theorem sameHostView_completed {s s' : State} (hm : s.mem = s'.mem) :
    SameHostView (.next s.completed) (.next s'.completed) :=
  sameHostView_next hm rfl

/-- Publishing the same cooked key to the same buffers shows the same. -/
theorem sameHostView_publish {s s' : State} {r r' : Scratch} (hm : s.mem = s'.mem)
    (hr : r.ckb.toList = r'.ckb.toList) (cb coff : Nat) :
    SameHostView (publish cb coff r s) (publish cb coff r' s') :=
  sameHostView_completed (by simp only [hm, hr])

/-- An expansion whose cooked key is a function of the raw key, whatever the registers held before. -/
def CooksTo (expand : Scratch → Scratch) (cooked : List Byte → List Byte) : Prop :=
  ∀ (key : List Byte) (r : Scratch), legalKeyLen key.length →
    (pack (expand (loadKey key r))).ckb.toList = cooked key

theorem cookValidating_sameHostView {expand : Scratch → Scratch} {cooked : List Byte → List Byte}
    (hx : CooksTo expand cooked) {s s' : State} (hm : s.mem = s'.mem) (kb koff klen cb coff : Nat) :
    SameHostView (cookValidating expand kb koff klen cb coff s) (cookValidating expand kb koff klen cb coff s') := by
  have hb : s.begin.mem = s'.begin.mem := hm
  cases h : badHandle s.mem [kb, cb] with
  | true =>
    rw [cookValidating_of_badHandle h, cookValidating_of_badHandle (hm ▸ h)]
    exact sameHostView_faulted hm _
  | false =>
    cases hf : cookFault s.mem kb koff klen cb coff with
    | some f =>
      rw [cookValidating_of_fault h hf, cookValidating_of_fault (hm ▸ h) (hm ▸ hf)]
      exact sameHostView_faulted hb _
    | none =>
      have hk : legalKeyLen (memRead s'.mem kb koff klen).length := by
        simpa using ((cookFault_eq_none_iff ..).1 hf).1
      rw [cookValidating_of_none h hf, cookValidating_of_none (hm ▸ h) (hm ▸ hf), hm]
      exact sameHostView_publish hb ((hx _ _ hk).trans (hx _ _ hk).symm) _ _

theorem cookCompat_sameHostView {expand : Scratch → Scratch} {cooked : List Byte → List Byte}
    (hx : CooksTo expand cooked) {s s' : State} (hm : s.mem = s'.mem) (kb koff klen cb coff : Nat) :
    SameHostView (cookCompat expand kb koff klen cb coff s) (cookCompat expand kb koff klen cb coff s') := by
  have hb : s.begin.mem = s'.begin.mem := hm
  cases h : badHandle s.mem [kb, cb] with
  | true =>
    rw [cookCompat_of_badHandle h, cookCompat_of_badHandle (hm ▸ h)]
    exact sameHostView_faulted hm _
  | false =>
    cases hf : cookZFault s.mem cb coff with
    | some f =>
      rw [cookCompat_of_fault h hf, cookCompat_of_fault (hm ▸ h) (hm ▸ hf)]
      exact sameHostView_faulted hb _
    | none =>
      cases hk : badKey s.mem kb koff klen with
      | true =>
        rw [cookCompat_of_badKey h hf hk, cookCompat_of_badKey (hm ▸ h) (hm ▸ hf) (hm ▸ hk)]
        exact sameHostView_publish hb ((zeroFill_ckb _).trans (zeroFill_ckb _).symm) _ _
      | false =>
        have hl : legalKeyLen (memRead s'.mem kb koff klen).length := by
          simpa using ((badKey_eq_false_iff ..).1 hk).1
        rw [cookCompat_of_goodKey h hf hk, cookCompat_of_goodKey (hm ▸ h) (hm ▸ hf) (hm ▸ hk), hm]
        exact sameHostView_publish hb ((hx _ _ hl).trans (hx _ _ hl).symm) _ _

/-! ### The block commands -/

/-- The pipeline of R189 with T-tables, as a function of a schedule, a round count and the columns of a block. -/
def encryptLookups (w : List Word) (nr : Nat) (q : Quad) : Quad :=
  addRoundKey w nr (sboxLookups
    ((List.range' 1 (nr - 1)).foldl (fun q n => addRoundKey w n (teLookups q)) (addRoundKey w 0 q)))

/-- The pipeline of R218 with inverse T-tables, likewise. -/
def decryptLookups (w : List Word) (nr : Nat) (q : Quad) : Quad :=
  addRoundKey w 0 (invSboxLookups
    ((List.range' 1 (nr - 1)).reverse.foldl (fun q n => addRoundKey w n (tdLookups q)) (addRoundKey w nr q)))

/-- Adding a loaded round-key group is `AddRoundKey` with the cooked key's schedule (R184, R188). -/
theorem xor_loaded_group {ck : List Byte} (block : List Byte) (d : Nat) (hn : legalNr (ck.getD Config.ckNrOffset 0))
    {g : Nat} (hg : g ≤ cookedNr ck) (q : Quad) :
    q.xor ((loaded ck block d).group g) = addRoundKey (cookedSchedule ck) g q := by
  rw [loaded_group block d hn hg, addRoundKey]

/-- What the pipeline of R189 leaves in `S` is a function of the cooked key and the block, whatever the registers held
before they were loaded. -/
theorem encryptRegs_loaded_s {ck : List Byte} (block : List Byte) (d : Nat)
    (hn : legalNr (ck.getD Config.ckNrOffset 0)) :
    (encryptRegs (loaded ck block d)).s = encryptLookups (cookedSchedule ck) (cookedNr ck) (Quad.ofBytes block) := by
  have hnr : (loaded ck block d).nr.toNat = cookedNr ck := by rw [loaded_nr, cookedNr]
  have hle := (cookedNr_le hn).2
  rw [encryptRegs_s _ (by omega), hnr, loaded_s, xor_loaded_group block d hn le_rfl,
    xor_loaded_group block d hn (Nat.zero_le _), encryptLookups,
    List.foldl_ext _ (fun q n => addRoundKey (cookedSchedule ck) n (teLookups q))]
  intro q n hmem
  rw [List.mem_range'_1] at hmem
  exact xor_loaded_group block d hn (by omega) _

/-- What the pipeline of R218 leaves in `S`, likewise. -/
theorem decryptRegs_loaded_s {ck : List Byte} (block : List Byte) (d : Nat)
    (hn : legalNr (ck.getD Config.ckNrOffset 0)) :
    (decryptRegs (loaded ck block d)).s = decryptLookups (cookedSchedule ck) (cookedNr ck) (Quad.ofBytes block) := by
  have hnr : (loaded ck block d).nr.toNat = cookedNr ck := by rw [loaded_nr, cookedNr]
  have hle := (cookedNr_le hn).2
  rw [decryptRegs_s _ (by omega), hnr, loaded_s, xor_loaded_group block d hn le_rfl,
    xor_loaded_group block d hn (Nat.zero_le _), decryptLookups,
    List.foldl_ext _ (fun q n => addRoundKey (cookedSchedule ck) n (tdLookups q))]
  intro q n hmem
  rw [List.mem_reverse, List.mem_range'_1] at hmem
  exact xor_loaded_group block d hn (by omega) _

/-- A transform of the registers whose block is a function of the cooked key and the source block, whatever the
registers held before they were loaded. -/
def TransformsTo (tr : Scratch → Scratch) (f : List Byte → List Byte → Quad) : Prop :=
  ∀ (ck block : List Byte) (d : Nat), legalNr (ck.getD Config.ckNrOffset 0) → (tr (loaded ck block d)).s = f ck block

theorem blockCommand_sameHostView {tr : Scratch → Scratch} {f : List Byte → List Byte → Quad}
    (ht : TransformsTo tr f) {s s' : State} (hm : s.mem = s'.mem) (cb coff sb soff db doff : Nat) :
    SameHostView (blockCommand tr cb coff sb soff db doff s) (blockCommand tr cb coff sb soff db doff s') := by
  have hb : s.begin.mem = s'.begin.mem := hm
  cases h : badHandle s.mem [cb, sb, db] with
  | true =>
    rw [blockCommand_of_badHandle h, blockCommand_of_badHandle (hm ▸ h)]
    exact sameHostView_faulted hm _
  | false =>
    cases hf : blockFault s.mem cb coff sb soff db doff with
    | some f =>
      rw [blockCommand_of_fault h hf, blockCommand_of_fault (hm ▸ h) (hm ▸ hf)]
      exact sameHostView_faulted hb _
    | none =>
      by_cases hn : legalNr ((memRead s.mem cb coff Config.ckBytes).getD Config.ckNrOffset 0)
      · have hn' : legalNr ((memRead s'.mem cb coff Config.ckBytes).getD Config.ckNrOffset 0) := hm ▸ hn
        rw [blockCommand_of_legal h hf hn, blockCommand_of_legal (hm ▸ h) (hm ▸ hf) hn']
        exact sameHostView_completed (by simp only [hm, ht _ _ _ hn'])
      · rw [blockCommand_of_mismatch h hf hn, blockCommand_of_mismatch (hm ▸ h) (hm ▸ hf) (hm ▸ hn)]
        exact sameHostView_faulted hb _

/-! ### Every command -/

/-- Settles O20: each shared command body branches on the buffers alone, and what it writes is a function of the bytes it
read: `cookedEnc_of_regs` and `cookedDec_of_regs` for a cooked key, the two `_loaded_s` lemmas for a block. -/
theorem hiddenStateIsUnobservable : Obligations.HiddenStateIsUnobservable := by
  intro i s s' hm
  have henc : CooksTo expandEnc cookedEnc := fun _ r h => cookedEnc_of_regs r h
  have hdec : CooksTo expandDec cookedDec := fun _ r h => cookedDec_of_regs r h
  cases i with
  | tinit => exact sameHostView_completed (s := s.begin) (s' := s'.begin) hm
  | cke => exact cookValidating_sameHostView henc hm ..
  | ckd => exact cookValidating_sameHostView hdec hm ..
  | ckeZ => exact cookCompat_sameHostView henc hm ..
  | ckdZ => exact cookCompat_sameHostView hdec hm ..
  | enc => exact blockCommand_sameHostView (fun _ => encryptRegs_loaded_s) hm ..
  | dec => exact blockCommand_sameHostView (fun _ => decryptRegs_loaded_s) hm ..

end Sys2Proof.Machine

/-! ## The buffers and what changes them (20_memory.md R50, R51, R56 to R58)

The memory on its own first; then the frame of a command, from the ways it can end; then what every step keeps. -/

namespace Sys2Proof.Machine

/-! ### The canonical form determines the data (R50) -/

theorem cellAt_eq_of_mem {cells : List Host.Cell} (hs : cells.Pairwise fun x y => x.1 < y.1) {c : Host.Cell}
    (hc : c ∈ cells) : cellAt cells c.1 = c.2 := by
  induction hs with
  | nil => cases hc
  | cons hlt _ ih =>
    cases hc with
    | head => simp [cellAt]
    | tail _ hc => simpa [cellAt, (hlt _ hc).ne] using ih hc

theorem mem_of_cellAt_ne_unlisted {cells : List Host.Cell} {x : Nat} (h : cellAt cells x ≠ Config.unlisted) :
    (x, cellAt cells x) ∈ cells := by
  induction cells with
  | nil => exact absurd rfl h
  | cons c cs ih =>
    by_cases hc : c.1 = x
    · subst hc
      simp [cellAt]
    · simp only [cellAt, if_neg hc] at h ⊢
      exact List.mem_cons_of_mem _ (ih h)

/-- The cells of a canonical buffer are exactly its bytes that are not the unlisted one. -/
theorem mem_cells_iff {buf : Buffer} (h : buf.wf) (c : Host.Cell) :
    c ∈ buf.cells ↔ c.1 < buf.cap ∧ cellAt buf.cells c.1 = c.2 ∧ c.2 ≠ Config.unlisted := by
  obtain ⟨hs, hb⟩ := h
  constructor
  · intro hc
    exact ⟨(hb c hc).1, cellAt_eq_of_mem hs hc, (hb c hc).2⟩
  · rintro ⟨-, hv, hne⟩
    have := mem_of_cellAt_ne_unlisted (hv ▸ hne)
    rwa [hv] at this

theorem buffer_eq_of_bytes {buf buf' : Buffer} (h : buf.wf) (h' : buf'.wf) (hcap : buf.cap = buf'.cap)
    (hbyte : ∀ a < buf.cap, cellAt buf.cells a = cellAt buf'.cells a) : buf = buf' := by
  have hirrefl : Std.Irrefl fun x y : Host.Cell => x.1 < y.1 := ⟨fun x => lt_irrefl x.1⟩
  have hasymm : Std.Antisymm fun x y : Host.Cell => x.1 < y.1 := ⟨fun _ _ hxy hyx => absurd hxy hyx.asymm⟩
  have hcells : buf.cells = buf'.cells := by
    refine h.1.eq_of_mem_iff h'.1 fun c => ?_
    rw [mem_cells_iff h, mem_cells_iff h', ← hcap]
    exact and_congr_right fun hc => by rw [hbyte c.1 hc]
  cases buf
  cases buf'
  simp_all

theorem byte?_of_lt {m : Memory} {b a : Nat} (hb : b < m.length) (ha : a < m[b].cap) :
    m.byte? b a = some (cellAt m[b].cells a) := by
  simp [Memory.byte?, hb, ha]

/-- Settles O12: buffer by buffer, since the cells of a canonical buffer are its bytes that are not the unlisted one, in
rising order. -/
theorem equalBytesMakeEqualMemories : Obligations.EqualBytesMakeEqualMemories := by
  intro m m' hm hm' hshape hbyte
  have hlen : m.length = m'.length := by simpa [Memory.shape] using congrArg List.length hshape
  refine List.ext_getElem hlen fun b hb hb' => ?_
  have hcap : m[b].cap = m'[b].cap := by
    simpa [Memory.shape, hb, hb'] using congrArg (·[b]?) hshape
  refine buffer_eq_of_bytes (hm _ (List.getElem_mem hb)) (hm' _ (List.getElem_mem hb')) hcap fun a ha => ?_
  simpa [byte?_of_lt hb ha, byte?_of_lt hb' (hcap ▸ ha)] using hbyte b a

/-! ### A write and its window (R57) -/

/-- Inside an in-range window every byte reads as the written one. -/
theorem memWrite_byte?_inside {m : Memory} {b a : Nat} {vs : List Byte} (hb : b < m.length)
    (hr : inRange m b a vs.length) {j : Nat} (hj : j < vs.length) :
    (memWrite m b a vs).byte? b (a + j) = some vs[j] := by
  have hs : (m.byte? b (a + j)).isSome := (byte?_isSome_iff m b _).2 ⟨hb, (Nat.add_lt_add_left hj a).trans_le hr⟩
  obtain ⟨v, hv⟩ := Option.isSome_iff_exists.1 hs
  simp [memWrite_byte?, hv, hj]

/-- Settles O11: the rules for a read inside the window, outside it, and of the whole of it. -/
theorem memWriteSetsExactlyItsBytes : Obligations.MemWriteSetsExactlyItsBytes :=
  fun m _ _ _ hb hr => ⟨fun _ hj => memWrite_byte?_inside hb hr hj, fun _ _ h => memWrite_byte?_outside m h,
    memRead_memWrite_same m hb hr⟩

/-- A slice of which every byte exists is in range (R50, R51): its last byte is below the capacity. -/
theorem slice_in_range_of_bytes {m : Memory} {b off n : Nat}
    (h : ∀ b' a, b' = b ∧ off ≤ a ∧ a < off + (n + 1) → b' < m.length ∧ a < m.cap b') :
    b < m.length ∧ off + (n + 1) ≤ m.cap b :=
  h b (off + n) ⟨rfl, by omega, by omega⟩

/-- A command whose window holds only bytes that exist has its whole window in range. -/
theorem windowInRange_of_bytes {m : Memory} {i : Instr}
    (h : ∀ b a, InWindow i b a → b < m.length ∧ a < m.cap b) : WindowInRange m i := by
  cases i with
  | tinit => trivial
  | cke => exact slice_in_range_of_bytes h
  | ckd => exact slice_in_range_of_bytes h
  | ckeZ => exact slice_in_range_of_bytes h
  | ckdZ => exact slice_in_range_of_bytes h
  | enc => exact slice_in_range_of_bytes h
  | dec => exact slice_in_range_of_bytes h

/-! ### The frame of a command (R57, R58) -/

theorem exec_byte?_outside {i : Instr} {s t : State} (h : exec i s = .next t) {b a : Nat} (hw : ¬ InWindow i b a) :
    t.mem.byte? b a = s.mem.byte? b a := by
  cases ending_of_exec h with
  | badHandle => rfl
  | fault => rfl
  | noWrite => rfl
  | write _ _ _ _ _ _ hwin => exact memWrite_byte?_outside s.mem (mt (hwin b a).2 hw)

theorem exec_shape {i : Instr} {s t : State} (h : exec i s = .next t) : Memory.shape t.mem = Memory.shape s.mem := by
  cases ending_of_exec h with
  | badHandle => rfl
  | fault => rfl
  | noWrite => rfl
  | write => exact memWrite_shape ..

theorem exec_keeps_packet {i : Instr} {s t : State} (h : exec i s = .next t) :
    t.cw = s.cw ∧ t.received = s.received ∧ t.port = s.port := by
  cases ending_of_exec h with
  | badHandle => exact ⟨rfl, rfl, rfl⟩
  | fault => exact ⟨rfl, rfl, rfl⟩
  | noWrite => exact ⟨rfl, rfl, rfl⟩
  | write => exact ⟨rfl, rfl, rfl⟩

/-- Settles O18: the three parts of the frame. -/
theorem commandFrame : Obligations.CommandFrame :=
  fun _ _ _ h => ⟨fun _ _ => exec_byte?_outside h, exec_shape h, exec_keeps_packet h⟩

/-- A command that changes the memory has completed with a write, and its window is in range. -/
theorem exec_writes {i : Instr} {s t : State} (h : exec i s = .next t) (hne : t.mem ≠ s.mem) :
    t.result = resultDone ∧ WindowInRange s.mem i := by
  cases ending_of_exec h with
  | badHandle => exact absurd rfl hne
  | fault => exact absurd rfl hne
  | noWrite => exact absurd rfl hne
  | write _ _ _ _ hb hr hwin =>
    refine ⟨rfl, windowInRange_of_bytes fun b' a' hin => ?_⟩
    obtain ⟨rfl, -, ha⟩ := (hwin b' a').1 hin
    exact ⟨hb, ha.trans_le hr⟩

/-- Settles O16: a changed byte is no byte of the frame, and a change needs a completed write. -/
theorem changedByteLiesInWindow : Obligations.ChangedByteLiesInWindow := by
  intro i s t b a h hne
  obtain ⟨hdone, hrange⟩ := exec_writes h fun he => hne (by rw [he])
  exact ⟨hdone, by_contra fun hw => hne (exec_byte?_outside h hw), hrange⟩

/-! ### What every step keeps -/

/-- Settles O15: a command keeps the shape, the HOST's write of a byte does, and no other action touches a buffer. -/
theorem stepKeepsBufferShape : Obligations.StepKeepsBufferShape := by
  intro s t h
  cases stepEffect_of_step h with
  | idle => rfl
  | placed => rfl
  | ran _ _ _ _ _ he => exact (exec_shape he :)
  | illegal => rfl
  | poked => exact memWrite_shape ..
  | reset => rfl

theorem exec_keeps_mem_wf {i : Instr} {s t : State} (h : exec i s = .next t) (hm : s.mem.wf) : t.mem.wf := by
  cases ending_of_exec h with
  | badHandle => exact hm
  | fault => exact hm
  | noWrite => exact hm
  | write _ _ _ _ _ hr => exact memWrite_wf hm hr

/-- `RESULT` holds one of the codes 0 to 5 after a command (10_state.md R30). -/
theorem exec_result_le_five {i : Instr} {s t : State} (h : exec i s = .next t) : t.result.toNat ≤ 5 := by
  cases ending_of_exec h with
  | badHandle => exact (code_range _).2
  | fault f => exact (code_range f).2
  | noWrite => exact Nat.zero_le 5
  | write => exact Nat.zero_le 5

/-- A command that starts with no word of a next packet received ends in a state that meets the invariant. -/
theorem exec_inv {i : Instr} {s t : State} (h : exec i s = .next t) (hm : s.mem.wf) (hs : s.received = 0) : t.Inv := by
  obtain ⟨-, hreceived, -⟩ := exec_keeps_packet h
  exact ⟨exec_keeps_mem_wf h hm, exec_result_le_five h, .inl (hreceived.trans hs)⟩

/-- A byte that exists is a slice in range (R50, R51). -/
theorem inRange_of_byte? {m : Memory} {b a : Nat} (h : (m.byte? b a).isSome) : inRange m b a 1 :=
  ((byte?_isSome_iff m b a).1 h).2

/-- Settles O13, by the ways a step can end: a word that waits leaves fewer words than its packet has, one that
completes the packet leaves none, and only a command or a HOST write touches a buffer, by a write in range. -/
theorem stepKeepsInvariant : Obligations.StepKeepsInvariant := by
  intro s t hinv h
  obtain ⟨hm, hres, hpend⟩ := hinv
  cases stepEffect_of_step h with
  | idle => exact ⟨hm, hres, hpend⟩
  | placed _ _ _ hn => exact ⟨hm, hres, .inr hn⟩
  | ran _ _ _ _ _ he => exact exec_inv he hm rfl
  | illegal => exact ⟨hm, (code_range _).2, .inl rfl⟩
  | poked _ _ _ _ _ hb => exact ⟨memWrite_wf hm (inRange_of_byte? hb), hres, hpend⟩
  | reset => exact ⟨hm, Nat.zero_le 5, .inl rfl⟩

end Sys2Proof.Machine

/-! ## The packets and their words (30_encoding.md R80 to R88, R91)

The decoder on an encoded packet is read off `decode_encode_append`; this part holds the other direction, the length of
a packet, and the two faults that come before a command's own checks. -/

namespace Sys2Proof

/-- Settles O1: the operands of each format read back. -/
theorem decodeOfEncodeIsIdentity : Obligations.DecodeOfEncodeIsIdentity :=
  fun _ rest h => decode_encode_append h rest

/-! ### The words an accepted packet is made of (R83 to R85) -/

/-- A command whose operands are the values of words is well formed, and those words follow `W0` in its packet. -/
theorem encode_of_operands {i : Instr} {vs : List Word} (h : i.operands = vs.map BitVec.toNat) :
    i.wellFormed = true ∧ encode i = i.commandWord :: vs := by
  constructor
  · rw [wellFormed_iff, h, List.forall_mem_map]
    exact fun v _ => v.isLt
  · simp [encode, h, Function.comp_def]

/-- What the format K decoder accepts, encoded again under the command word of its command (R83). -/
theorem encode_of_decodeK {mk : Nat → Nat → Nat → Nat → Nat → Instr} {w0 : Word}
    {ws rest : List Word} {i : Instr} (h : decodeK mk ws = .ok (i, rest))
    (hw : ∀ kb koff klen cb coff, (mk kb koff klen cb coff).commandWord = w0)
    (ho : ∀ kb koff klen cb coff, (mk kb koff klen cb coff).operands = [kb, koff, klen, cb, coff]) :
    i.wellFormed = true ∧ encode i ++ rest = w0 :: ws := by
  unfold decodeK at h
  split at h
  · next kb koff klen cb coff _ =>
    cases h
    obtain ⟨hwf, he⟩ := encode_of_operands (vs := [kb, koff, klen, cb, coff]) (ho ..)
    exact ⟨hwf, by rw [he, hw]; rfl⟩
  · cases h

/-- What the format B decoder accepts, likewise (R84). -/
theorem encode_of_decodeB {mk : Nat → Nat → Nat → Nat → Nat → Nat → Instr} {w0 : Word}
    {ws rest : List Word} {i : Instr} (h : decodeB mk ws = .ok (i, rest))
    (hw : ∀ cb coff sb soff db doff, (mk cb coff sb soff db doff).commandWord = w0)
    (ho : ∀ cb coff sb soff db doff, (mk cb coff sb soff db doff).operands = [cb, coff, sb, soff, db, doff]) :
    i.wellFormed = true ∧ encode i ++ rest = w0 :: ws := by
  unfold decodeB at h
  split at h
  · next cb coff sb soff db doff _ =>
    cases h
    obtain ⟨hwf, he⟩ := encode_of_operands (vs := [cb, coff, sb, soff, db, doff]) (ho ..)
    exact ⟨hwf, by rw [he, hw]; rfl⟩
  · cases h

/-- The decoder accepts no packet whose first word is none of the seven (R87). -/
theorem commandWord_of_decode_ok {w0 : Word} {ws rest : List Word} {i : Instr}
    (h : decode (w0 :: ws) = .ok (i, rest)) : w0 ∈ commandWords := by
  by_contra hw
  rw [decode_of_illegal hw] at h
  cases h

theorem commandWords_cases {w0 : Word} (h : w0 ∈ commandWords) :
    w0 = 0x00000001 ∨ w0 = 0x00000010 ∨ w0 = 0x00000011 ∨ w0 = 0x00000018 ∨ w0 = 0x00000019 ∨ w0 = 0x00000020 ∨
      w0 = 0x00000021 := by
  simpa using h

/-- Settles O2: the first word is one of the seven, and under each the decoder of its format takes the operand words of
the command it gives. -/
theorem acceptedWordsAreThePacket : Obligations.AcceptedWordsAreThePacket := by
  intro ws i rest h
  cases ws with
  | nil => cases h
  | cons w0 ws =>
    obtain rfl | rfl | rfl | rfl | rfl | rfl | rfl := commandWords_cases (commandWord_of_decode_ok h)
    · cases h
      exact ⟨rfl, rfl⟩
    · exact encode_of_decodeK ((decode_cke_word ws).symm.trans h) (fun _ _ _ _ _ => rfl) fun _ _ _ _ _ => rfl
    · exact encode_of_decodeK ((decode_ckd_word ws).symm.trans h) (fun _ _ _ _ _ => rfl) fun _ _ _ _ _ => rfl
    · exact encode_of_decodeK ((decode_ckeZ_word ws).symm.trans h) (fun _ _ _ _ _ => rfl) fun _ _ _ _ _ => rfl
    · exact encode_of_decodeK ((decode_ckdZ_word ws).symm.trans h) (fun _ _ _ _ _ => rfl) fun _ _ _ _ _ => rfl
    · exact encode_of_decodeB ((decode_enc_word ws).symm.trans h) (fun _ _ _ _ _ _ => rfl) fun _ _ _ _ _ _ => rfl
    · exact encode_of_decodeB ((decode_dec_word ws).symm.trans h) (fun _ _ _ _ _ _ => rfl) fun _ _ _ _ _ _ => rfl

namespace Machine

/-! ### The length of a packet and the start of its command (R87, R88) -/

theorem packetLen_eq (w0 : Word) : packetLen w0 =
    if w0 ∈ ([0x00000010, 0x00000011, 0x00000018, 0x00000019] : List Word) then 6
    else if w0 ∈ ([0x00000020, 0x00000021] : List Word) then 7
    else 1 := by
  by_cases h : w0 ∈ commandWords
  · obtain rfl | rfl | rfl | rfl | rfl | rfl | rfl := commandWords_cases h <;> decide
  · have hk : ([0x00000010, 0x00000011, 0x00000018, 0x00000019] : List Word) ⊆ commandWords := by decide
    have hb : ([0x00000020, 0x00000021] : List Word) ⊆ commandWords := by decide
    rw [packetLen_of_illegal h, if_neg (mt (@hk w0) h), if_neg (mt (@hb w0) h)]

/-- Settles O5: the lengths of R88 for every `W0`, then the step on a word that leaves the packet incomplete and on one
that completes it. -/
theorem packetLengthDecidesStart : Obligations.PacketLengthDecidesStart :=
  ⟨packetLen_eq, fun _ _ _ hp => ⟨step_of_incomplete_packet hp, step_of_complete_packet hp⟩⟩

theorem issue_of_illegal {w0 : Word} (h : w0 ∉ commandWords) (ws : List Word) (s : State) :
    issue (w0 :: ws) s = .next (s.faulted .illegalCommand) := by
  simp [issue, decode_of_illegal h, raise]

/-- An illegal first word is a whole packet, so it faults in the step that takes it (R87, 60_exceptions.md R245). -/
theorem step_of_illegal_word {s : State} {w0 : Word} {rest : List HostEvent} (hp : s.port = .word w0 :: rest)
    (hs : s.received = 0) (h : w0 ∉ commandWords) :
    step s = .next (State.faulted .illegalCommand { s with port := rest, cw := s.cw.put 0 w0, received := 0 }) := by
  have hlen : packetLen (s.cw.put s.received w0).w0 ≤ s.received + 1 := by
    simp [hs, packetLen_of_illegal h]
  rw [step_of_complete_packet hp hlen, hs]
  exact issue_of_illegal h [] _

/-- Settles O4: the step is the fault, and a fault keeps the buffers, `TABLES_READY` and the actions to come. -/
theorem illegalWordFaultsAlone : Obligations.IllegalWordFaultsAlone :=
  fun _ _ _ hp hs h => ⟨packetLen_of_illegal h, decode_of_illegal h, _, step_of_illegal_word hp hs h,
    faulted_result .., faulted_mem .., faulted_tablesReady .., faulted_received .., faulted_port ..⟩

/-! ### A handle that names no buffer (R91) -/

/-- Settles O22: each shared command body checks the command's handles first. -/
theorem badHandleFaultsFirst : Obligations.BadHandleFaultsFirst := by
  intro i s hbad
  have h : badHandle s.mem (handlesOf i) = true := (badHandle_eq_true_iff ..).2 hbad
  cases i with
  | tinit => cases h
  | cke => exact cookValidating_of_badHandle h
  | ckd => exact cookValidating_of_badHandle h
  | ckeZ => exact cookCompat_of_badHandle h
  | ckdZ => exact cookCompat_of_badHandle h
  | enc => exact blockCommand_of_badHandle h
  | dec => exact blockCommand_of_badHandle h

end Machine
end Sys2Proof

/-! ## The Table Generator (40_tables.md)

Each law of GF(2^8) is linear in one of its bytes, so the eight powers `02^i`, `i < 8`, decide it. The inverse follows
from the laws, and each ROM is then checked by one product a byte. -/

namespace Sys2Proof.Machine

/-! ### Linear maps on bytes -/

/-- A map on bytes that is linear over exclusive-or. -/
def XorLinear (f : Byte → Byte) : Prop := ∀ a b, f (a ^^^ b) = f a ^^^ f b

theorem xorLinear_gmul_right (c : Byte) : XorLinear (gmul c) := gmul_xor_right c

theorem xorLinear_gmul_left (c : Byte) : XorLinear fun a => gmul a c := fun a b => gmul_xor_left a b c

theorem XorLinear.comp {f g : Byte → Byte} (hf : XorLinear f) (hg : XorLinear g) : XorLinear fun a => f (g a) :=
  fun a b => (congrArg f (hg a b)).trans (hf _ _)

theorem XorLinear.iterate {f : Byte → Byte} (hf : XorLinear f) : ∀ n : Nat, XorLinear f^[n]
  | 0 => fun _ _ => rfl
  | n + 1 => (hf.iterate n).comp hf

theorem XorLinear.map_zero {f : Byte → Byte} (hf : XorLinear f) : f 0 = 0 := by
  simpa using hf 0 0

/-- The power `02^i` is the byte with bit `i` alone. -/
theorem xtimes_one_eq {i : Nat} (h : i < 8) : xtimes i 1 = BitVec.twoPow 8 i := by
  interval_cases i <;> rfl

/-- A byte is the sum of the powers `02^i` at its set bits. -/
theorem gmul_one_left : ∀ a : Byte, gmul 1 a = a := by decide

/-- Linear maps that agree on the powers `02^i` of the byte's bits are equal: a byte is a sum of such powers. -/
theorem XorLinear.eq_of_powers {f g : Byte → Byte} (hf : XorLinear f) (hg : XorLinear g)
    (h : ∀ i < 8, f (xtimes i 1) = g (xtimes i 1)) (a : Byte) : f a = g a := by
  rw [← gmul_one_left a, gmul_eq_sum]
  simp only [hf _ _, hg _ _, apply_ite f, apply_ite g, hf.map_zero, hg.map_zero, h, Nat.reduceLT]

/-! ### The laws of the product (R112) -/

theorem gmul_xtimes_one {i : Nat} (h : i < 8) (a : Byte) : gmul a (xtimes i 1) = xtimes i a := by
  rw [xtimes_one_eq h, gmul_eq_sum]
  interval_cases i <;> simp

theorem xtimes_xtime (n : Nat) (a : Byte) : xtimes n (xtime a) = xtime (xtimes n a) := by
  induction n with
  | zero => rfl
  | succ n ih => exact congrArg xtime ih

theorem gmul_xtime_left (a b : Byte) : gmul (xtime a) b = xtime (gmul a b) := by
  refine XorLinear.eq_of_powers (xorLinear_gmul_right _) (.comp xtime_xor (xorLinear_gmul_right a)) (fun i hi => ?_) b
  rw [gmul_xtimes_one hi, gmul_xtimes_one hi, xtimes_xtime]

theorem gmul_xtimes_left (n : Nat) (a b : Byte) : gmul (xtimes n a) b = xtimes n (gmul a b) := by
  induction n with
  | zero => rfl
  | succ n ih => exact (gmul_xtime_left _ _).trans (congrArg xtime ih)

theorem gmul_comm (a b : Byte) : gmul a b = gmul b a := by
  refine XorLinear.eq_of_powers (xorLinear_gmul_right a) (xorLinear_gmul_left a) (fun i hi => ?_) b
  rw [gmul_xtimes_one hi, gmul_xtimes_left, gmul_one_left]

theorem gmul_one_right (a : Byte) : gmul a 1 = a := (gmul_comm a 1).trans (gmul_one_left a)

theorem gmul_zero_left (a : Byte) : gmul 0 a = 0 := (gmul_comm 0 a).trans (gmul_zero_right a)

theorem gmul_assoc (a b c : Byte) : gmul (gmul a b) c = gmul a (gmul b c) := by
  refine XorLinear.eq_of_powers (xorLinear_gmul_right _)
    (.comp (xorLinear_gmul_right a) (xorLinear_gmul_right b)) (fun i hi => ?_) c
  rw [gmul_xtimes_one hi, gmul_xtimes_one hi, gmul_comm a (xtimes i b), gmul_xtimes_left, gmul_comm b a]

/-- The multiples that MixColumns, its inverse and the T-tables use (R112). -/
theorem gmul_multiples (a : Byte) :
    gmul 0x02 a = xtime a ∧ gmul 0x03 a = xtime a ^^^ a ∧ gmul 0x09 a = xtimes 3 a ^^^ a ∧
    gmul 0x0b a = xtimes 3 a ^^^ xtime a ^^^ a ∧ gmul 0x0d a = xtimes 3 a ^^^ xtimes 2 a ^^^ a ∧
    gmul 0x0e a = xtimes 3 a ^^^ xtimes 2 a ^^^ xtime a := by
  simp only [gmul_comm _ a, gmul_eq_sum]
  and_intros <;> simp [xtimes] <;> ac_rfl

/-- Settles O24: the laws by linearity, the multiples as sums of `xtimes`, the worked values by evaluation. -/
theorem fieldMultiplicationLaws : Obligations.FieldMultiplicationLaws :=
  ⟨gmul_comm, gmul_assoc, gmul_xor_right, gmul_one_right, gmul_zero_right, gmul_multiples, by decide⟩

/-! ### Powers and the inverse (R113) -/

/-- The power `a^n`: `n` products by `a`, from 01 (R113). -/
def gpow (a : Byte) (n : Nat) : Byte := (gmul a)^[n] 0x01

theorem gpow_succ (a : Byte) (n : Nat) : gpow a (n + 1) = gmul a (gpow a n) := Function.iterate_succ_apply' ..

theorem gpow_one (a : Byte) : gpow a 1 = a := gmul_one_right a

theorem gpow_add (a : Byte) (m n : Nat) : gpow a (m + n) = gmul (gpow a m) (gpow a n) := by
  induction m with
  | zero => rw [Nat.zero_add]; exact (gmul_one_left _).symm
  | succ m ih => rw [Nat.succ_add, gpow_succ, gpow_succ, ih, gmul_assoc]

/-- The inverse, computed by squaring, is the power R113 names. -/
theorem ginv_eq_gpow (a : Byte) : ginv a = gpow a 254 := by
  have h2 : gmul a a = gpow a 2 := by rw [gpow_succ, gpow_one]
  simp only [ginv, gpow254, h2, ← gpow_add]

/-- Squaring is linear: the two mixed products cancel. -/
theorem xorLinear_square : XorLinear fun a => gmul a a := by
  intro a b
  simp only [gmul_xor_left, gmul_xor_right, gmul_comm b a]
  rw [BitVec.xor_assoc, ← BitVec.xor_assoc (gmul a b), BitVec.xor_self, BitVec.zero_xor]

theorem gpow_two_pow (a : Byte) (k : Nat) : gpow a (2 ^ k) = (fun a => gmul a a)^[k] a := by
  induction k with
  | zero => exact gpow_one a
  | succ k ih => rw [Nat.pow_succ, Nat.mul_two, gpow_add, ih, Function.iterate_succ_apply']

/-- Every byte is a root of `x^256 - x`: eight squarings are linear, and fix each `02^i`. -/
theorem gpow_256 (a : Byte) : gpow a 256 = a := by
  rw [show 256 = 2 ^ 8 from rfl, gpow_two_pow]
  exact XorLinear.eq_of_powers (g := id) (xorLinear_square.iterate 8) (fun _ _ => rfl) (by decide +kernel) a

/-- A field has no idempotents but 0 and 1: the finite fact that takes the place of the irreducibility of `0x11B`. -/
theorem eq_zero_or_one_of_idempotent : ∀ e : Byte, gmul e e = e → e = 0 ∨ e = 1 := by decide

/-- `a^255` is idempotent, since `a^510 = a^256 * a^254`; were it 0, `a = a * a^255` would be. -/
theorem gpow_255 {a : Byte} (h : a ≠ 0) : gpow a 255 = 1 := by
  have hidem : gmul (gpow a 255) (gpow a 255) = gpow a 255 := calc
    _ = gpow a (256 + 254) := (gpow_add a 255 255).symm
    _ = gmul a (gpow a 254) := by rw [gpow_add, gpow_256]
    _ = gpow a 255 := (gpow_succ a 254).symm
  refine (eq_zero_or_one_of_idempotent _ hidem).resolve_left fun h0 => h ?_
  calc a = gmul a (gpow a 255) := by rw [← gpow_succ, gpow_256]
    _ = 0 := by rw [h0, gmul_zero_right]

theorem gmul_ginv {a : Byte} (h : a ≠ 0) : gmul a (ginv a) = 1 := by
  rw [ginv_eq_gpow, ← gpow_succ, gpow_255 h]

theorem eq_ginv_of_gmul_eq_one {a b : Byte} (h : gmul a b = 1) : b = ginv a := by
  have ha : a ≠ 0 := by
    rintro rfl
    rw [gmul_zero_left] at h
    exact absurd h (by decide)
  calc b = gmul (gmul a (ginv a)) b := by rw [gmul_ginv ha, gmul_one_left]
    _ = gmul (ginv a) (gmul a b) := by rw [gmul_comm a, gmul_assoc]
    _ = ginv a := by rw [h, gmul_one_right]

theorem ginv_zero : ginv 0 = 0 := by
  rw [ginv_eq_gpow, gpow_succ, gmul_zero_left]

/-- Settles O25: `a * a^254 = a^255 = 01`, and a byte `b` with `a * b = 01` is `inv(a)`, which gives the worked
values. -/
theorem inverseIsUnique : Obligations.InverseIsUnique := by
  refine ⟨fun a h => ⟨gmul_ginv h, fun _ => eq_ginv_of_gmul_eq_one⟩, ginv_eq_gpow, ginv_zero, ?_, ?_, ?_⟩
  all_goals exact (eq_ginv_of_gmul_eq_one (by decide)).symm

theorem ginv_ginv (a : Byte) : ginv (ginv a) = a := by
  by_cases h : a = 0
  · rw [h, ginv_zero, ginv_zero]
  · exact (eq_ginv_of_gmul_eq_one ((gmul_comm ..).trans (gmul_ginv h))).symm

/-! ### The S-boxes (R115, R116) -/

/-- The one product a byte that holds the `SBOX` ROM to its rule. -/
theorem gmul_affineInverse_sbox : ∀ x : Byte, x ≠ 0 → gmul x (affineInverse (sbox x)) = 1 := by decide

theorem affine_affineInverse : ∀ y : Byte, affine (affineInverse y) = y := by decide

theorem affineInverse_sbox (x : Byte) : affineInverse (sbox x) = ginv x := by
  by_cases h : x = 0
  · rw [h, ginv_zero]
    decide
  · exact eq_ginv_of_gmul_eq_one (gmul_affineInverse_sbox x h)

theorem sbox_eq_genSbox (x : Byte) : sbox x = genSbox x := by
  rw [genSbox, ← affineInverse_sbox, affine_affineInverse]

theorem invSbox_leftInverse_sbox : Function.LeftInverse invSbox sbox := by
  show ∀ x, invSbox (sbox x) = x
  decide

theorem sbox_bijective : Function.Bijective sbox :=
  Finite.injective_iff_bijective.1 invSbox_leftInverse_sbox.injective

/-- Settles O26: undoing the affine map on the ROM's entry gives the inverse byte, which one product identifies; and the
`INVSBOX` ROM undoes it. -/
theorem sboxRomIsAffineOfInverse : Obligations.SboxRomIsAffineOfInverse :=
  ⟨sbox_eq_genSbox, sbox_bijective⟩

theorem sbox_invSbox (y : Byte) : sbox (invSbox y) = y :=
  invSbox_leftInverse_sbox.rightInverse_of_surjective sbox_bijective.surjective y

theorem invSbox_eq_genInvSbox (y : Byte) : invSbox y = genInvSbox y := by
  rw [genInvSbox, ← sbox_invSbox y, affineInverse_sbox, ginv_ginv, sbox_invSbox]

/-- Settles O27: a left inverse of a permutation is its inverse, so the rule follows from the one of `SBOX`. -/
theorem invSboxRomIsInverse : Obligations.InvSboxRomIsInverse :=
  ⟨invSbox_leftInverse_sbox, sbox_invSbox, invSbox_eq_genInvSbox⟩

/-! ### The round constants (R117) -/

theorem rcon_eq_genRcon : ∀ j < 10, rcon j = genRcon j := by decide

/-- Settles O28: each entry is the power `02^j`, and the next power is its `xtime`. -/
theorem rconRomIsPowers : Obligations.RconRomIsPowers := by
  refine ⟨rfl, rfl, fun j h => ?_⟩
  rw [rcon_eq_genRcon _ h, rcon_eq_genRcon _ (by omega)]
  rfl

/-! ### The T-tables (R118 to R121) -/

theorem te0_eq_genTe0 : ∀ x : Byte, te0 x = genTe0 (sbox x) := by decide

theorem td0_eq_genTd0 : ∀ x : Byte, td0 x = genTd0 (invSbox x) := by decide

/-- Settles O29: the `TE0` ROM by its rule, and the other three as its rotations. -/
theorem forwardTablesFuseMixColumns : Obligations.ForwardTablesFuseMixColumns := by
  intro x
  simp only [te1, te2, te3, te0_eq_genTe0, genTe0, rotateRight_eight_word, rotateRight_sixteen_word,
    rotateRight_twentyfour_word, and_self]

/-- Settles O30: the `TD0` ROM by its rule, and the other three as its rotations. -/
theorem inverseTablesFuseInvMixColumns : Obligations.InverseTablesFuseInvMixColumns := by
  intro x
  simp only [td1, td2, td3, td0_eq_genTd0, genTd0, rotateRight_eight_word, rotateRight_sixteen_word,
    rotateRight_twentyfour_word, and_self]

/-! ### TINIT (R124, R125) -/

theorem exec_tinit (s : State) : exec .tinit s = .next s.begin.completed := rfl

/-- Settles O31: `TINIT` keeps the buffers, and what a later command shows is a function of those. -/
theorem tinitCompletesUnobservably : Obligations.TinitCompletesUnobservably := fun s =>
  ⟨_, exec_tinit s, rfl, rfl, rfl, rfl, rfl, rfl, fun i => hiddenStateIsUnobservable i _ s rfl⟩

end Sys2Proof.Machine

/-! ## The Key Scheduler (41_key_schedule.md)

The column matrices are circulant, so their product is a product of first rows. The schedules, the cooked keys and the
cook commands are read off `Laws/KeySchedule` and `Laws/Commands`. -/

namespace Sys2Proof.Machine

/-! ### `RotWord` and `SubWord` (R152, R153) -/

theorem rotWord_eq_word (w : Word) : rotWord w = word (byteK 1 w) (byteK 2 w) (byteK 3 w) (byteK 0 w) := by
  rw [← rotWord_word, word_byteK]

theorem byteK_subWord (w : Word) {k : Nat} (h : k < 4) : byteK k (subWord w) = sbox (byteK k w) := by
  interval_cases k <;> simp [subWord]

/-- Settles O32: the byte forms, and the worked values by evaluation. -/
theorem wordFunctionsActOnBytes : Obligations.WordFunctionsActOnBytes :=
  ⟨rotWord_eq_word, by decide, fun w _ => byteK_subWord w, by decide⟩

/-! ### The column matrices (R154, 42_encrypt.md R183) -/

/-- A column times the circulant matrix over GF(2^8) whose first row is `c0 c1 c2 c3`. -/
def circulantWord (c0 c1 c2 c3 : Byte) (w : Word) : Word :=
  let a0 := byteK 0 w
  let a1 := byteK 1 w
  let a2 := byteK 2 w
  let a3 := byteK 3 w
  word (gmul c0 a0 ^^^ gmul c1 a1 ^^^ gmul c2 a2 ^^^ gmul c3 a3)
    (gmul c3 a0 ^^^ gmul c0 a1 ^^^ gmul c1 a2 ^^^ gmul c2 a3)
    (gmul c2 a0 ^^^ gmul c3 a1 ^^^ gmul c0 a2 ^^^ gmul c1 a3)
    (gmul c1 a0 ^^^ gmul c2 a1 ^^^ gmul c3 a2 ^^^ gmul c0 a3)

theorem invMixColumnWord_eq_circulantWord (w : Word) : invMixColumnWord w = circulantWord 0x0e 0x0b 0x0d 0x09 w := rfl

theorem mixColumnWord_eq_circulantWord (w : Word) : mixColumnWord w = circulantWord 0x02 0x03 0x01 0x01 w := by
  simp only [mixColumnWord, circulantWord, gmul_one_left]

theorem circulantWord_one (w : Word) : circulantWord 1 0 0 0 w = w := by
  simp only [circulantWord, gmul_one_left, gmul_zero_left]
  simp

theorem circulantWord_xor (c0 c1 c2 c3 : Byte) (u v : Word) :
    circulantWord c0 c1 c2 c3 (u ^^^ v) = circulantWord c0 c1 c2 c3 u ^^^ circulantWord c0 c1 c2 c3 v := by
  simp only [circulantWord, ← word_xor, byteK_xor, gmul_xor_right]
  congr 1 <;> ac_rfl

/-- The product of two circulant matrices: the first row times the second matrix. -/
theorem circulantWord_circulantWord (c0 c1 c2 c3 d0 d1 d2 d3 : Byte) (w : Word) :
    circulantWord c0 c1 c2 c3 (circulantWord d0 d1 d2 d3 w) =
      circulantWord (gmul c0 d0 ^^^ gmul c1 d3 ^^^ gmul c2 d2 ^^^ gmul c3 d1)
        (gmul c0 d1 ^^^ gmul c1 d0 ^^^ gmul c2 d3 ^^^ gmul c3 d2)
        (gmul c0 d2 ^^^ gmul c1 d1 ^^^ gmul c2 d0 ^^^ gmul c3 d3)
        (gmul c0 d3 ^^^ gmul c1 d2 ^^^ gmul c2 d1 ^^^ gmul c3 d0) w := by
  simp only [circulantWord, byteK_zero_word, byteK_one_word, byteK_two_word, byteK_three_word, gmul_xor_right,
    gmul_xor_left, gmul_assoc]
  congr 1 <;> ac_rfl

/-- The matrices of R154 and 42_encrypt.md R183 are inverse: the product's first row is `01 00 00 00`. -/
theorem mixColumnWord_invMixColumnWord (w : Word) : mixColumnWord (invMixColumnWord w) = w := by
  rw [mixColumnWord_eq_circulantWord, invMixColumnWord_eq_circulantWord, circulantWord_circulantWord]
  exact circulantWord_one w

/-- `InvMixColumnWord` adds the four table columns of R120 and R121, once the S-box in front cancels `INVSBOX`. -/
theorem invMixColumnWord_eq_tables (w : Word) : invMixColumnWord w =
    td0 (sbox (byteK 0 w)) ^^^ td1 (sbox (byteK 1 w)) ^^^ td2 (sbox (byteK 2 w)) ^^^ td3 (sbox (byteK 3 w)) := by
  obtain ⟨h0, -⟩ := inverseTablesFuseInvMixColumns (sbox (byteK 0 w))
  obtain ⟨-, h1, -⟩ := inverseTablesFuseInvMixColumns (sbox (byteK 1 w))
  obtain ⟨-, -, h2, -⟩ := inverseTablesFuseInvMixColumns (sbox (byteK 2 w))
  obtain ⟨-, -, -, h3⟩ := inverseTablesFuseInvMixColumns (sbox (byteK 3 w))
  simp only [h0, h1, h2, h3, invSbox_leftInverse_sbox _, ← word_xor, invMixColumnWord]

/-- Settles O49: a circulant matrix is linear, and its columns are the inverse T-tables' entries. -/
theorem invMixColumnWordFromTables : Obligations.InvMixColumnWordFromTables :=
  ⟨circulantWord_xor _ _ _ _, invMixColumnWord_eq_tables⟩

/-! ### The schedules (R151, R155, R162) -/

/-- Settles O33: the length, the words of the key, and the recurrence at every index after them. -/
theorem encScheduleFollowsRecurrence : Obligations.EncScheduleFollowsRecurrence := by
  intro key hkey
  have hnk : 0 < key.length / 4 ∧ key.length / 4 ≤ 8 := by omega
  refine ⟨encSchedule_length key, fun i => encSchedule_getD_key key, fun i hi hlen => ?_⟩
  refine expandFrom_getD_step _ _ (keyWords key) hnk.1 (keyWords_length key).ge (by rwa [keyWords_length]) ?_
  rw [keyWords_length, scheduleWords, roundCount]
  omega

/-- A word of the decryption schedule by its group: the groups 0 and `Nr` are kept. -/
theorem decSchedule_getD_group (key : List Byte) {g c : Nat} (hg : g ≤ roundCount key.length) (hc : c < 4) :
    (decSchedule key).getD (4 * g + c) 0 =
      if g = 0 ∨ g = roundCount key.length then (encSchedule key).getD (4 * g + c) 0
      else invMixColumnWord ((encSchedule key).getD (4 * g + c) 0) := by
  rw [decSchedule_getD key (by rw [encSchedule_length, scheduleWords]; omega)]
  by_cases h : g = 0 ∨ g = roundCount key.length
  · rw [if_pos h, if_neg (by omega)]
  · rw [if_neg h, if_pos (by omega)]

/-- Settles O34: word `4g + c` lies between the outer groups exactly when its group does. -/
theorem decScheduleTransformsInnerGroups : Obligations.DecScheduleTransformsInnerGroups :=
  fun key _ => ⟨decSchedule_length key, fun _ _ => decSchedule_getD_group key⟩

/-- Settles O35: an inner word has been through `InvMixColumnWord`, which `MixColumnWord` undoes. -/
theorem mixColumnsRecoversEncSchedule : Obligations.MixColumnsRecoversEncSchedule := by
  intro key i _ h4 hi
  rw [decSchedule_getD key (by rw [encSchedule_length, scheduleWords]; omega), if_pos ⟨h4, hi⟩,
    mixColumnWord_invMixColumnWord]

/-! ### The cooked keys (R157) -/

/-- The layout of a schedule with `Nr` round count: its words, the zero tail, and `Nr` in byte 240. -/
theorem cookedBytes_layout {w : List Word} {nr : Nat} (hw : w.length = scheduleWords nr) (h60 : w.length ≤ 60) :
    (cookedBytes w nr).length = 241 ∧
      (∀ i k, i < 4 * (nr + 1) → k < 4 → (cookedBytes w nr).getD (4 * i + k) 0 = byteK k (w.getD i 0)) ∧
      (∀ j, 16 * (nr + 1) ≤ j → j < 240 → (cookedBytes w nr).getD j 0 = 0) ∧
      (cookedBytes w nr).getD 240 0 = BitVec.ofNat 8 nr := by
  have h240 : 4 * w.length ≤ 240 := by omega
  rw [scheduleWords] at hw
  refine ⟨cookedBytes_length h240, fun i k hi hk => ?_, fun j hj hlt => ?_, ?_⟩
  · rw [cookedBytes_getD h240 (by omega), if_neg (by omega), if_pos (by omega),
      show (4 * i + k) % 4 = k by omega, show (4 * i + k) / 4 = i by omega]
  · rw [cookedBytes_getD h240 (by omega), if_neg (by omega), if_neg (by omega)]
  · rw [cookedBytes_getD h240 (by omega), if_pos rfl]

theorem byteK_be32 (m : List Byte) (a : Nat) {k : Nat} (h : k < 4) : byteK k (be32 m a) = m.getD (a + k) 0 := by
  interval_cases k <;> simp [be32]

/-- A schedule fits in the registers `RK[0..59]` (10_state.md R24). -/
theorem encSchedule_length_le {key : List Byte} (h : legalKeyLen key.length) : (encSchedule key).length ≤ 60 :=
  (encSchedule_length key).trans_le (scheduleWords_le key h)

theorem cookedEnc_length {key : List Byte} (h : legalKeyLen key.length) : (cookedEnc key).length = 241 :=
  (cookedBytes_layout (encSchedule_length key) (encSchedule_length_le h)).1

/-- The encryption cooked key begins with the raw key: the first `Nk` words are the key's. -/
theorem cookedEnc_take_key {key : List Byte} (h : legalKeyLen key.length) :
    (cookedEnc key).take key.length = key := by
  obtain ⟨-, hword, -⟩ := cookedBytes_layout (encSchedule_length key) (encSchedule_length_le h)
  refine List.ext_getElem (by rw [List.length_take, cookedEnc_length h]; omega) fun j hj hj' => ?_
  have hi : j / 4 < key.length / 4 := by omega
  have hb := hword (j / 4) (j % 4) (by rw [roundCount]; omega) (Nat.mod_lt _ four_pos)
  rw [encSchedule_getD_key key hi, byteK_be32 _ _ (Nat.mod_lt _ four_pos), Nat.div_add_mod] at hb
  rwa [List.getElem_take, ← List.getD_eq_getElem _ 0, ← List.getD_eq_getElem _ 0]

/-- Settles O36: the layout holds of both schedules, which have the same length. -/
theorem cookedKeyLayout : Obligations.CookedKeyLayout := by
  intro key hkey
  have hle := encSchedule_length_le hkey
  have hdec := decSchedule_length key
  intro p hp
  obtain rfl | rfl := List.mem_pair.1 hp
  · obtain ⟨hlen, hword, htail, hnr⟩ := cookedBytes_layout (encSchedule_length key) hle
    exact ⟨hlen, hword, htail, hnr, cookedEnc_take_key hkey⟩
  · obtain ⟨hlen, hword, htail, hnr⟩ := cookedBytes_layout (hdec.trans (encSchedule_length key)) (hdec.trans_le hle)
    exact ⟨hlen, hword, htail, hnr, cookedEnc_take_key hkey⟩

/-! ### A cook command that completes (R158 to R161) -/

theorem cooksTo_expandEnc : CooksTo expandEnc cookedEnc := fun _ r h => cookedEnc_of_regs r h

theorem cooksTo_expandDec : CooksTo expandDec cookedDec := fun _ r h => cookedDec_of_regs r h

/-- The outcome is completion with the bytes `vs` written from offset `a` of buffer `b` on and nothing else the HOST can
see changed. -/
def CompletesWriting (s : State) (b a : Nat) (vs : List Byte) (o : Host.Outcome State Fault Refusal) : Prop :=
  ∃ t, o = .next t ∧ t.result = 0 ∧ t.tablesReady = true ∧ t.mem = memWrite s.mem b a vs ∧
    t.cw = s.cw ∧ t.received = s.received ∧ t.port = s.port

theorem publish_completes {r : Scratch} {vs : List Byte} (h : r.ckb.toList = vs) (cb coff : Nat) (s : State) :
    CompletesWriting s cb coff vs (publish cb coff r s.begin) :=
  ⟨_, publish_eq .., rfl, rfl, congrArg (memWrite s.mem cb coff) h, rfl, rfl, rfl⟩

theorem badHandle_pair_eq_false {m : Memory} {kb cb : Nat} (hk : kb < m.length) (hc : cb < m.length) :
    badHandle m [kb, cb] = false :=
  (badHandle_eq_false_iff ..).2 (by simp [hk, hc])

section

variable {expand : Scratch → Scratch} {cooked : List Byte → List Byte} {s : State} {kb koff klen cb coff : Nat}

theorem cookValidating_completes (hx : CooksTo expand cooked) (hkb : kb < s.mem.length) (hcb : cb < s.mem.length)
    (hlen : legalKeyLen klen) (hkey : inRange s.mem kb koff klen) (hdst : inRange s.mem cb coff 241) :
    CompletesWriting s cb coff (cooked (memRead s.mem kb koff klen))
      (cookValidating expand kb koff klen cb coff s) := by
  rw [cookValidating_of_none (badHandle_pair_eq_false hkb hcb) ((cookFault_eq_none_iff ..).2 ⟨hlen, hkey, hdst⟩)]
  exact publish_completes (hx _ _ (by rwa [memRead_length])) ..

/-- A raw key of illegal length or out of range is zero-filled (R160). -/
theorem cookCompat_completes (hx : CooksTo expand cooked) (hkb : kb < s.mem.length) (hcb : cb < s.mem.length)
    (hdst : inRange s.mem cb coff 241) :
    CompletesWriting s cb coff
      (if legalKeyLen klen ∧ inRange s.mem kb koff klen then cooked (memRead s.mem kb koff klen)
        else List.replicate 241 0)
      (cookCompat expand kb koff klen cb coff s) := by
  have hh := badHandle_pair_eq_false hkb hcb
  have hf := (cookZFault_eq_none_iff ..).2 hdst
  cases hk : badKey s.mem kb koff klen with
  | false =>
    have hgood := (badKey_eq_false_iff ..).1 hk
    rw [cookCompat_of_goodKey hh hf hk, if_pos hgood]
    exact publish_completes (hx _ _ (by rw [memRead_length]; exact hgood.1)) ..
  | true =>
    have hbad : ¬ (legalKeyLen klen ∧ inRange s.mem kb koff klen) :=
      mt (badKey_eq_false_iff ..).2 (by simp [hk])
    rw [cookCompat_of_badKey hh hf hk, if_neg hbad]
    exact publish_completes (zeroFill_ckb _) ..

/-! ### A cook command that faults (60_exceptions.md R246) -/

theorem cookFault_of_illegal_length {m : Memory} (h : ¬ legalKeyLen klen) :
    cookFault m kb koff klen cb coff = some .invalidKeySize := if_pos h

theorem cookFault_of_key_out_of_range {m : Memory} (hlen : legalKeyLen klen) (h : ¬ inRange m kb koff klen) :
    cookFault m kb koff klen cb coff = some .offsetOutOfRange := by
  rw [cookFault, if_neg (not_not.2 hlen), if_pos h]

theorem cookFault_of_destination_out_of_range {m : Memory} (hlen : legalKeyLen klen) (hkey : inRange m kb koff klen)
    (h : ¬ inRange m cb coff 241) : cookFault m kb koff klen cb coff = some .offsetOutOfRange := by
  rw [cookFault, if_neg (not_not.2 hlen), if_neg (not_not.2 hkey)]
  exact if_pos h

theorem cookValidating_faults_in_order (hkb : kb < s.mem.length) (hcb : cb < s.mem.length) :
    (¬ legalKeyLen klen →
      cookValidating expand kb koff klen cb coff s = .next (s.begin.faulted .invalidKeySize)) ∧
    (legalKeyLen klen → ¬ inRange s.mem kb koff klen →
      cookValidating expand kb koff klen cb coff s = .next (s.begin.faulted .offsetOutOfRange)) ∧
    (legalKeyLen klen → inRange s.mem kb koff klen → ¬ inRange s.mem cb coff 241 →
      cookValidating expand kb koff klen cb coff s = .next (s.begin.faulted .offsetOutOfRange)) := by
  have hh := badHandle_pair_eq_false hkb hcb
  exact ⟨fun h => cookValidating_of_fault hh (cookFault_of_illegal_length h),
    fun hlen h => cookValidating_of_fault hh (cookFault_of_key_out_of_range hlen h),
    fun hlen hkey h => cookValidating_of_fault hh (cookFault_of_destination_out_of_range hlen hkey h)⟩

theorem cookCompat_faults_iff (hx : CooksTo expand cooked) (hkb : kb < s.mem.length) (hcb : cb < s.mem.length) :
    (cookCompat expand kb koff klen cb coff s = .next (s.begin.faulted .offsetOutOfRange) ↔
      ¬ inRange s.mem cb coff 241) ∧
    ∀ t, cookCompat expand kb koff klen cb coff s = .next t → (t.result ≠ 0 ↔ ¬ inRange s.mem cb coff 241) := by
  by_cases hdst : inRange s.mem cb coff 241
  · obtain ⟨u, hu, hres, -⟩ := cookCompat_completes (koff := koff) (klen := klen) hx hkb hcb hdst
    have hresult : ∀ t, cookCompat expand kb koff klen cb coff s = .next t → t.result = 0 := by
      intro t ht
      cases hu.symm.trans ht
      exact hres
    exact ⟨iff_of_false (fun h => code_ne_done .offsetOutOfRange (hresult _ h)) (not_not.2 hdst),
      fun t ht => iff_of_false (not_not.2 (hresult t ht)) (not_not.2 hdst)⟩
  · have hfault := cookCompat_of_fault (expand := expand) (koff := koff) (klen := klen)
      (badHandle_pair_eq_false hkb hcb) (if_pos hdst : cookZFault s.mem cb coff = some .offsetOutOfRange)
    refine ⟨iff_of_true hfault hdst, fun t ht => iff_of_true ?_ hdst⟩
    cases hfault.symm.trans ht
    exact code_ne_done .offsetOutOfRange

end

/-! ### The statements about the cook commands -/

/-- Settles O38: the validating cook command around the expansion of R151. -/
theorem ckeWritesEncryptionKey : Obligations.CkeWritesEncryptionKey :=
  fun _ _ _ _ _ _ => cookValidating_completes cooksTo_expandEnc

/-- Settles O39: the validating cook command around the expansion of R155. -/
theorem ckdWritesDecryptionKey : Obligations.CkdWritesDecryptionKey :=
  fun _ _ _ _ _ _ => cookValidating_completes cooksTo_expandDec

/-- Settles O40: the compatibility cook command around the expansion of R151. -/
theorem ckeZWritesKeyOrZeros : Obligations.CkeZWritesKeyOrZeros :=
  fun _ _ _ _ _ _ => cookCompat_completes cooksTo_expandEnc

/-- Settles O41: the compatibility cook command around the expansion of R155. -/
theorem ckdZWritesKeyOrZeros : Obligations.CkdZWritesKeyOrZeros :=
  fun _ _ _ _ _ _ => cookCompat_completes cooksTo_expandDec

/-- Settles O42: both commands run the same checks. -/
theorem validatingCookFaultOrder : Obligations.ValidatingCookFaultOrder := by
  intro mk s kb koff klen cb coff hmk hkb hcb
  obtain rfl | rfl := hmk
  · exact cookValidating_faults_in_order (expand := expandEnc) hkb hcb
  · exact cookValidating_faults_in_order (expand := expandDec) hkb hcb

/-- Settles O43: both commands check the destination alone. -/
theorem compatCookFaultsOnDestination : Obligations.CompatCookFaultsOnDestination := by
  intro mk s kb koff klen cb coff hmk hkb hcb
  obtain rfl | rfl := hmk
  · exact cookCompat_faults_iff cooksTo_expandEnc hkb hcb
  · exact cookCompat_faults_iff cooksTo_expandDec hkb hcb

end Sys2Proof.Machine

/-! ## The Block Transform, encryption (42_encrypt.md)

A block is read byte by byte: two blocks with the same byte in every row and column are equal, and `SubBytes`,
`ShiftRows` and `AddRoundKey` each have a rule for the byte they put there. A full round of T-table lookups is the single
steps column by column, and each step has an inverse, so encryption does too. -/

namespace Sys2Proof.Machine

/-! ### The columns of a block (00_scope.md R13) -/

theorem quad_col_mod (q : Quad) (c : Nat) : q.col (c % 4) = q.col c := by
  simp [Quad.col]

/-- Column `c` of a block given by a rule for its columns. -/
theorem quad_col_mk (f : Nat → Word) (c : Nat) : Quad.col ⟨f 0, f 1, f 2, f 3⟩ c = f (c % 4) := by
  rw [← quad_col_mod]
  have hc := Nat.mod_lt c four_pos
  interval_cases c % 4 <;> rfl

/-- Two blocks with the same byte in every row and column are equal. -/
theorem quad_ext_bytes {p q : Quad} (h : ∀ r c, r < 4 → c < 4 → byteK r (p.col c) = byteK r (q.col c)) : p = q := by
  have hcol : ∀ c < 4, p.col c = q.col c := fun c hc =>
    word_ext (h 0 c (by decide) hc) (h 1 c (by decide) hc) (h 2 c (by decide) hc) (h 3 c (by decide) hc)
  cases p
  cases q
  rw [Quad.mk.injEq]
  exact ⟨hcol 0 (by decide), hcol 1 (by decide), hcol 2 (by decide), hcol 3 (by decide)⟩

theorem quad_col_xor (p q : Quad) (c : Nat) : (p.xor q).col c = p.col c ^^^ q.col c := by
  rw [← quad_col_mod p, ← quad_col_mod q]
  exact quad_col_mk (fun c => p.col c ^^^ q.col c) c

/-- Every column through one function of words: `SubBytes` and `MixColumns` are of this form, and so are their inverses.
-/
def mapColumns (f : Word → Word) (q : Quad) : Quad := ⟨f q.w0, f q.w1, f q.w2, f q.w3⟩

theorem subBytes_eq_mapColumns : subBytes = mapColumns subWord := rfl

theorem quad_col_mapColumns (f : Word → Word) (q : Quad) (c : Nat) : (mapColumns f q).col c = f (q.col c) := by
  rw [← quad_col_mod q]
  exact quad_col_mk (fun c => f (q.col c)) c

theorem mapColumns_leftInverse {f g : Word → Word} (h : Function.LeftInverse g f) :
    Function.LeftInverse (mapColumns g) (mapColumns f) := fun q => by
  simp only [mapColumns, h _]

/-! ### The round steps byte by byte (R181, R182, R184; 43_decrypt.md R211, R212) -/

theorem byteK_subBytes (q : Quad) {r : Nat} (hr : r < 4) (c : Nat) :
    byteK r ((subBytes q).col c) = sbox (byteK r (q.col c)) := by
  rw [subBytes_eq_mapColumns, quad_col_mapColumns, byteK_subWord _ hr]

theorem byteK_shiftedColumn (q : Quad) {r : Nat} (hr : r < 4) (c : Nat) :
    byteK r (shiftedColumn q c) = byteK r (q.col (c + r)) := by
  interval_cases r <;> simp [shiftedColumn]

theorem byteK_unshiftedColumn (q : Quad) {r : Nat} (hr : r < 4) (c : Nat) :
    byteK r (unshiftedColumn q c) = byteK r (q.col (c + (4 - r))) := by
  interval_cases r <;> simp [unshiftedColumn]

theorem byteK_shiftRows (q : Quad) {r c : Nat} (hr : r < 4) (hc : c < 4) :
    byteK r ((shiftRows q).col c) = byteK r (q.col ((c + r) % 4)) := by
  rw [shiftRows, quad_col_mk (shiftedColumn q), Nat.mod_eq_of_lt hc, byteK_shiftedColumn q hr, quad_col_mod]

theorem byteK_invShiftRows (q : Quad) {r c : Nat} (hr : r < 4) (hc : c < 4) :
    byteK r ((invShiftRows q).col c) = byteK r (q.col ((c + (4 - r)) % 4)) := by
  rw [invShiftRows, quad_col_mk (unshiftedColumn q), Nat.mod_eq_of_lt hc, byteK_unshiftedColumn q hr, quad_col_mod]

/-- `SubBytes` does not look at positions, and `ShiftRows` changes nothing else (R182). -/
theorem subBytes_shiftRows (q : Quad) : subBytes (shiftRows q) = shiftRows (subBytes q) :=
  quad_ext_bytes fun r c hr hc => by
    rw [byteK_subBytes _ hr, byteK_shiftRows _ hr hc, byteK_shiftRows _ hr hc, byteK_subBytes _ hr]

theorem groupOf_col (w : List Word) (g : Nat) {c : Nat} (hc : c < 4) : (groupOf w g).col c = w.getD (4 * g + c) 0 :=
  (quad_col_mk (fun c => w.getD (4 * g + c) 0) c).trans (by rw [Nat.mod_eq_of_lt hc])

theorem byteK_addRoundKey (w : List Word) (g : Nat) (q : Quad) (r : Nat) {c : Nat} (hc : c < 4) :
    byteK r ((addRoundKey w g q).col c) = byteK r (q.col c) ^^^ byteK r (w.getD (4 * g + c) 0) := by
  rw [addRoundKey, quad_col_xor, byteK_xor, groupOf_col w g hc]

theorem addRoundKey_involutive (w : List Word) (g : Nat) : Function.Involutive (addRoundKey w g) :=
  fun q => quad_xor_self_right q (groupOf w g)

/-- Settles O45: the byte rules of the three steps, and the commutation that follows from two of them. -/
theorem roundStepsByByte : Obligations.RoundStepsByByte := fun q r _ hr hc =>
  ⟨byteK_subBytes q hr _, byteK_shiftRows q hr hc, subBytes_shiftRows q,
    fun w g => ⟨byteK_addRoundKey w g q r hc, addRoundKey_involutive w g q⟩⟩

/-! ### A full round as table lookups (R186, R187) -/

theorem sboxColumn_eq_shiftedColumn (q : Quad) (c : Nat) : sboxColumn q c = shiftedColumn (subBytes q) c := by
  simp [sboxColumn, shiftedColumn, byteK_subBytes]

theorem sboxLookups_eq_steps (q : Quad) : sboxLookups q = shiftRows (subBytes q) := by
  simp only [sboxLookups, shiftRows, sboxColumn_eq_shiftedColumn]

/-- `MixColumnWord` adds the four columns of its matrix, and the T-tables hold those columns times an S-box entry (R118,
R119). -/
theorem teColumn_eq_mixColumnWord (q : Quad) (c : Nat) : teColumn q c = mixColumnWord (sboxColumn q c) := by
  obtain ⟨h0, -⟩ := forwardTablesFuseMixColumns (byteK 0 (q.col c))
  obtain ⟨-, h1, -⟩ := forwardTablesFuseMixColumns (byteK 1 (q.col (c + 1)))
  obtain ⟨-, -, h2, -⟩ := forwardTablesFuseMixColumns (byteK 2 (q.col (c + 2)))
  obtain ⟨-, -, -, h3⟩ := forwardTablesFuseMixColumns (byteK 3 (q.col (c + 3)))
  simp only [teColumn, h0, h1, h2, h3, ← word_xor, mixColumnWord, sboxColumn, byteK_zero_word, byteK_one_word,
    byteK_two_word, byteK_three_word]

theorem teLookups_eq_steps (q : Quad) : teLookups q = mixColumns (shiftRows (subBytes q)) := by
  simp only [← sboxLookups_eq_steps, teLookups, mixColumns, sboxLookups, teColumn_eq_mixColumnWord]

theorem encRound_s (r : Scratch) : (encRound r).s = (teLookups r.s).xor (r.group r.rnd.toNat) := rfl

/-- Settles O46: the sixteen lookups are the three steps before `AddRoundKey`. -/
theorem fullRoundIsSingleSteps : Obligations.FullRoundIsSingleSteps := fun r => by
  rw [encRound_s, teLookups_eq_steps]

theorem encryptLookups_eq_steps (w : List Word) (nr : Nat) (q : Quad) :
    encryptLookups w nr q = encryptSteps w nr q := by
  have hround : encStep w = fun q n => addRoundKey w n (teLookups q) := by
    funext q n
    rw [encStep, teLookups_eq_steps]
  rw [encryptLookups, encryptSteps, hround, sboxLookups_eq_steps]

/-! ### A block command that completes (R189, 43_decrypt.md R218) -/

theorem badHandle_triple_eq_false {m : Memory} {cb sb db : Nat} (hc : cb < m.length) (hs : sb < m.length)
    (hd : db < m.length) : badHandle m [cb, sb, db] = false :=
  (badHandle_eq_false_iff ..).2 (by simp [hc, hs, hd])

/-- A block command with its slices in range and a legal round count writes what its transform makes of the cooked key
and the source block. -/
theorem blockCommand_completes {tr : Scratch → Scratch} {f : List Byte → List Byte → Quad} (ht : TransformsTo tr f)
    {s : State} {cb coff sb soff db doff : Nat} (hcb : cb < s.mem.length) (hsb : sb < s.mem.length)
    (hdb : db < s.mem.length) (hkey : inRange s.mem cb coff 241) (hsrc : inRange s.mem sb soff 16)
    (hdst : inRange s.mem db doff 16) (hn : legalNr ((memRead s.mem cb coff 241).getD 240 0)) :
    CompletesWriting s db doff (f (memRead s.mem cb coff 241) (memRead s.mem sb soff 16)).bytes
      (blockCommand tr cb coff sb soff db doff s) :=
  ⟨_, blockCommand_of_legal (badHandle_triple_eq_false hcb hsb hdb)
      ((blockFault_eq_none_iff ..).2 ⟨hkey, hsrc, hdst⟩) hn,
    rfl, rfl, congrArg (fun q : Quad => memWrite s.mem db doff q.bytes) (ht _ _ _ hn), rfl, rfl, rfl⟩

/-- The pipeline of R189 computes the single steps of R185. -/
theorem transformsTo_encryptRegs :
    TransformsTo encryptRegs fun ck block => encryptSteps (cookedSchedule ck) (cookedNr ck) (Quad.ofBytes block) :=
  fun _ block d hn => (encryptRegs_loaded_s block d hn).trans (encryptLookups_eq_steps ..)

/-- Settles O50: the block command around the pipeline of R189. -/
theorem encWritesEncryptedBlock : Obligations.EncWritesEncryptedBlock :=
  fun _ _ _ _ _ _ _ => blockCommand_completes transformsTo_encryptRegs

/-! ### The bytes of a cooked key that are read (R188) -/

theorem be32_congr {m m' : List Byte} {a : Nat} (h : ∀ k < 4, m.getD (a + k) 0 = m'.getD (a + k) 0) :
    be32 m a = be32 m' a := by
  have h0 : m.getD a 0 = m'.getD a 0 := h 0 (by decide)
  rw [be32, be32, h0, h 1 (by decide), h 2 (by decide), h 3 (by decide)]

/-- The schedule of a cooked key lies in its first `16 * (Nr + 1)` bytes. -/
theorem cookedSchedule_congr {ck ck' : List Byte} (hnr : cookedNr ck = cookedNr ck')
    (h : ∀ j, j < 16 * (cookedNr ck + 1) → ck.getD j 0 = ck'.getD j 0) : cookedSchedule ck = cookedSchedule ck' := by
  rw [cookedSchedule, cookedSchedule, ← hnr]
  refine List.map_congr_left fun i hi => be32_congr fun k hk => h _ ?_
  rw [List.mem_range, scheduleWords] at hi
  omega

/-- Settles O54: both directions read only the round count and the schedule of a cooked key. -/
theorem unusedTailIsIgnored : Obligations.UnusedTailIsIgnored := by
  intro ck ck' block h240 hbytes
  have hnr : cookedNr ck = cookedNr ck' := congrArg BitVec.toNat h240
  have hw := cookedSchedule_congr hnr hbytes
  exact ⟨by rw [encryptBytes, encryptBytes, hnr, hw], by rw [decryptBytes, decryptBytes, hnr, hw]⟩

/-! ### The round steps have inverses (43_decrypt.md R211 to R213) -/

theorem invSubWord_subWord (w : Word) : invSubWord (subWord w) = w := by
  simp [invSubWord, subWord, invSbox_leftInverse_sbox _]

theorem subWord_invSubWord (w : Word) : subWord (invSubWord w) = w := by
  simp [invSubWord, subWord, sbox_invSbox]

theorem invSubBytes_leftInverse_subBytes : Function.LeftInverse invSubBytes subBytes :=
  mapColumns_leftInverse invSubWord_subWord

theorem invSubBytes_rightInverse_subBytes : Function.RightInverse invSubBytes subBytes :=
  mapColumns_leftInverse subWord_invSubWord

theorem invShiftRows_leftInverse_shiftRows : Function.LeftInverse invShiftRows shiftRows := fun q =>
  quad_ext_bytes fun r c hr hc => by
    rw [byteK_invShiftRows _ hr hc, byteK_shiftRows _ hr (Nat.mod_lt _ four_pos),
      show ((c + (4 - r)) % 4 + r) % 4 = c by omega]

theorem invShiftRows_rightInverse_shiftRows : Function.RightInverse invShiftRows shiftRows := fun q =>
  quad_ext_bytes fun r c hr hc => by
    rw [byteK_shiftRows _ hr hc, byteK_invShiftRows _ hr (Nat.mod_lt _ four_pos),
      show ((c + r) % 4 + (4 - r)) % 4 = c by omega]

/-- The other order of the product in `mixColumnWord_invMixColumnWord`. -/
theorem invMixColumnWord_mixColumnWord (w : Word) : invMixColumnWord (mixColumnWord w) = w := by
  rw [mixColumnWord_eq_circulantWord, invMixColumnWord_eq_circulantWord, circulantWord_circulantWord]
  exact circulantWord_one w

theorem invMixColumns_leftInverse_mixColumns : Function.LeftInverse invMixColumns mixColumns :=
  mapColumns_leftInverse invMixColumnWord_mixColumnWord

theorem invMixColumns_rightInverse_mixColumns : Function.RightInverse invMixColumns mixColumns :=
  mapColumns_leftInverse mixColumnWord_invMixColumnWord

/-! ### Encryption is a bijection (R190 item 2) -/

theorem subBytes_bijective : Function.Bijective subBytes :=
  Function.bijective_iff_has_inverse.2
    ⟨invSubBytes, invSubBytes_leftInverse_subBytes, invSubBytes_rightInverse_subBytes⟩

theorem shiftRows_bijective : Function.Bijective shiftRows :=
  Function.bijective_iff_has_inverse.2
    ⟨invShiftRows, invShiftRows_leftInverse_shiftRows, invShiftRows_rightInverse_shiftRows⟩

theorem mixColumns_bijective : Function.Bijective mixColumns :=
  Function.bijective_iff_has_inverse.2
    ⟨invMixColumns, invMixColumns_leftInverse_mixColumns, invMixColumns_rightInverse_mixColumns⟩

theorem encStep_bijective (w : List Word) (r : Nat) : Function.Bijective fun q => encStep w q r :=
  (addRoundKey_involutive w r).bijective.comp
    (mixColumns_bijective.comp (shiftRows_bijective.comp subBytes_bijective))

/-- The rounds `ns`, one after the other. -/
theorem encRounds_bijective (w : List Word) (ns : List Nat) : Function.Bijective fun q => ns.foldl (encStep w) q := by
  induction ns with
  | nil => exact Function.bijective_id
  | cons n ns ih => exact ih.comp (encStep_bijective w n)

/-- Encryption permutes the blocks, whatever the schedule and the round count. -/
theorem encryptSteps_bijective (w : List Word) (nr : Nat) : Function.Bijective (encryptSteps w nr) :=
  (addRoundKey_involutive w nr).bijective.comp (shiftRows_bijective.comp (subBytes_bijective.comp
    ((encRounds_bijective w _).comp (addRoundKey_involutive w 0).bijective)))

/-- Settles O56: the block that encrypts to `c` holds the columns that encrypt to those of `c`. The premise is not used:
any list of bytes read as a cooked key gives a bijection. -/
theorem encryptionIsBijective : Obligations.EncryptionIsBijective := by
  intro ck _ c hc
  have hbij := encryptSteps_bijective (cookedSchedule ck) (cookedNr ck)
  obtain ⟨q, hq⟩ := hbij.surjective (Quad.ofBytes c)
  refine ⟨q.bytes, ⟨quad_bytes_length q, ?_⟩, ?_⟩
  · rw [encryptBytes, quad_ofBytes_bytes, hq, quad_bytes_ofBytes c hc]
  · rintro p ⟨hp, rfl⟩
    rw [encryptBytes, quad_ofBytes_bytes] at hq
    rw [hbij.injective hq, quad_bytes_ofBytes p hp]

end Sys2Proof.Machine

/-! ## The Block Transform, decryption (43_decrypt.md)

A full inverse round of table lookups is the single inverse steps column by column, as for encryption. An inner
round-key group of the decryption schedule has been through `InvMixColumns`, so an inverse round undoes one round of
encryption from within: it takes the block that stands before `MixColumns` to the one that stood there a round
earlier. -/

namespace Sys2Proof.Machine

/-! ### The inverse transformations (R211 to R213) -/

/-- Settles O48: the two orders of each of the three pairs. -/
theorem inverseStepsUndoSteps : Obligations.InverseStepsUndoSteps := fun q =>
  ⟨invSubBytes_leftInverse_subBytes q, invSubBytes_rightInverse_subBytes q, invShiftRows_leftInverse_shiftRows q,
    invShiftRows_rightInverse_shiftRows q, invMixColumns_leftInverse_mixColumns q,
    invMixColumns_rightInverse_mixColumns q⟩

/-! ### A full inverse round as table lookups (R215, R216) -/

theorem byteK_invSubWord (w : Word) {k : Nat} (h : k < 4) : byteK k (invSubWord w) = invSbox (byteK k w) := by
  interval_cases k <;> simp [invSubWord]

theorem invSubBytes_eq_mapColumns : invSubBytes = mapColumns invSubWord := rfl

theorem byteK_invSubBytes (q : Quad) {r : Nat} (hr : r < 4) (c : Nat) :
    byteK r ((invSubBytes q).col c) = invSbox (byteK r (q.col c)) := by
  rw [invSubBytes_eq_mapColumns, quad_col_mapColumns, byteK_invSubWord _ hr]

theorem invSboxColumn_eq_unshiftedColumn (q : Quad) (c : Nat) :
    invSboxColumn q c = unshiftedColumn (invSubBytes q) c := by
  simp [invSboxColumn, unshiftedColumn, byteK_invSubBytes]

theorem invSboxLookups_eq_steps (q : Quad) : invSboxLookups q = invShiftRows (invSubBytes q) := by
  simp only [invSboxLookups, invShiftRows, invSboxColumn_eq_unshiftedColumn]

/-- `InvMixColumnWord` adds the four columns of its matrix, and the inverse T-tables hold those columns times an
`INVSBOX` entry (R120, R121). -/
theorem tdColumn_eq_invMixColumnWord (q : Quad) (c : Nat) : tdColumn q c = invMixColumnWord (invSboxColumn q c) := by
  obtain ⟨h0, -⟩ := inverseTablesFuseInvMixColumns (byteK 0 (q.col c))
  obtain ⟨-, h1, -⟩ := inverseTablesFuseInvMixColumns (byteK 1 (q.col (c + 3)))
  obtain ⟨-, -, h2, -⟩ := inverseTablesFuseInvMixColumns (byteK 2 (q.col (c + 2)))
  obtain ⟨-, -, -, h3⟩ := inverseTablesFuseInvMixColumns (byteK 3 (q.col (c + 1)))
  simp only [tdColumn, h0, h1, h2, h3, ← word_xor, invMixColumnWord, invSboxColumn, byteK_zero_word, byteK_one_word,
    byteK_two_word, byteK_three_word]

theorem tdLookups_eq_steps (q : Quad) : tdLookups q = invMixColumns (invShiftRows (invSubBytes q)) := by
  simp only [← invSboxLookups_eq_steps, tdLookups, invMixColumns, invSboxLookups, tdColumn_eq_invMixColumnWord]

theorem decRound_s (r : Scratch) : (decRound r).s = (tdLookups r.s).xor (r.group r.rnd.toNat) := rfl

/-- Settles O47: the sixteen lookups are the three inverse steps before `AddRoundKey`. -/
theorem fullInverseRoundIsSingleSteps : Obligations.FullInverseRoundIsSingleSteps := fun r => by
  rw [decRound_s, tdLookups_eq_steps]

theorem decryptLookups_eq_steps (w : List Word) (nr : Nat) (q : Quad) :
    decryptLookups w nr q = decryptSteps w nr q := by
  have hround : decStep w = fun q n => addRoundKey w n (tdLookups q) := by
    funext q n
    rw [decStep, tdLookups_eq_steps]
  rw [decryptLookups, decryptSteps, hround, invSboxLookups_eq_steps]

/-! ### The command (R218) -/

/-- The pipeline of R218 computes the single steps of R214. -/
theorem transformsTo_decryptRegs :
    TransformsTo decryptRegs fun ck block => decryptSteps (cookedSchedule ck) (cookedNr ck) (Quad.ofBytes block) :=
  fun _ block d hn => (decryptRegs_loaded_s block d hn).trans (decryptLookups_eq_steps ..)

/-- Settles O51: the block command around the pipeline of R218. -/
theorem decWritesDecryptedBlock : Obligations.DecWritesDecryptedBlock :=
  fun _ _ _ _ _ _ _ => blockCommand_completes transformsTo_decryptRegs

/-! ### The round keys of the decryption schedule (41_key_schedule.md R155) -/

/-- A round-key group of the decryption schedule: the groups 0 and `Nr` are kept. -/
theorem groupOf_decSchedule (key : List Byte) {g : Nat} (hg : g ≤ roundCount key.length) :
    groupOf (decSchedule key) g =
      if g = 0 ∨ g = roundCount key.length then groupOf (encSchedule key) g
      else invMixColumns (groupOf (encSchedule key) g) := by
  have h0 := decSchedule_getD_group key hg (c := 0) (by decide)
  rw [Nat.add_zero] at h0
  simp only [groupOf, h0, decSchedule_getD_group key hg (by decide : 1 < 4),
    decSchedule_getD_group key hg (by decide : 2 < 4), decSchedule_getD_group key hg (by decide : 3 < 4)]
  split <;> rfl

/-- `InvMixColumns` is linear (R154). -/
theorem invMixColumns_xor (p q : Quad) : invMixColumns (p.xor q) = (invMixColumns p).xor (invMixColumns q) := by
  simp only [invMixColumns, Quad.xor, invMixColumnWord_eq_circulantWord, circulantWord_xor]

theorem addRoundKey_decSchedule_outer {key : List Byte} {g : Nat} (hg : g = 0 ∨ g = roundCount key.length)
    (q : Quad) : addRoundKey (decSchedule key) g q = addRoundKey (encSchedule key) g q := by
  rw [addRoundKey, addRoundKey, groupOf_decSchedule key (by omega), if_pos hg]

/-- Adding an inner round key of the decryption schedule after `InvMixColumns` is adding the one of the encryption
schedule before it. -/
theorem addRoundKey_decSchedule_inner {key : List Byte} {g : Nat} (h0 : 0 < g) (hg : g < roundCount key.length)
    (q : Quad) :
    addRoundKey (decSchedule key) g (invMixColumns q) = invMixColumns (addRoundKey (encSchedule key) g q) := by
  rw [addRoundKey, addRoundKey, groupOf_decSchedule key hg.le, if_neg (by omega), invMixColumns_xor]

/-! ### Decryption undoes encryption (R219) -/

theorem invShiftRows_invSubBytes_shiftRows_subBytes (q : Quad) :
    invShiftRows (invSubBytes (shiftRows (subBytes q))) = q := by
  rw [← subBytes_shiftRows, invSubBytes_leftInverse_subBytes, invShiftRows_leftInverse_shiftRows]

/-- One inverse round takes the block before the `MixColumns` of the next round back to the one before that of its
own. -/
theorem decStep_shiftRows_subBytes_encStep {key : List Byte} {n : Nat} (h0 : 0 < n) (hn : n < roundCount key.length)
    (q : Quad) :
    decStep (decSchedule key) (shiftRows (subBytes (encStep (encSchedule key) q n))) n = shiftRows (subBytes q) := by
  rw [decStep, invShiftRows_invSubBytes_shiftRows_subBytes, addRoundKey_decSchedule_inner h0 hn, encStep,
    addRoundKey_involutive, invMixColumns_leftInverse_mixColumns]

/-- The inverse rounds `ns`, last one first, undo the rounds `ns`. -/
theorem decRounds_shiftRows_subBytes_encRounds {key : List Byte} (ns : List Nat)
    (hns : ∀ n ∈ ns, 0 < n ∧ n < roundCount key.length) (q : Quad) :
    ns.reverse.foldl (decStep (decSchedule key)) (shiftRows (subBytes (ns.foldl (encStep (encSchedule key)) q))) =
      shiftRows (subBytes q) := by
  induction ns generalizing q with
  | nil => rfl
  | cons n ns ih =>
    obtain ⟨⟨h0, hn⟩, hns⟩ := List.forall_mem_cons.1 hns
    rw [List.foldl_cons, List.reverse_cons, List.foldl_append, ih hns]
    exact decStep_shiftRows_subBytes_encStep h0 hn q

theorem decryptSteps_leftInverse_encryptSteps (key : List Byte) :
    Function.LeftInverse (decryptSteps (decSchedule key) (roundCount key.length))
      (encryptSteps (encSchedule key) (roundCount key.length)) := fun q => by
  have hns : ∀ n ∈ List.range' 1 (roundCount key.length - 1), 0 < n ∧ n < roundCount key.length := by
    intro n hn
    rw [List.mem_range'_1] at hn
    omega
  rw [decryptSteps, encryptSteps, addRoundKey_decSchedule_outer (.inr rfl), addRoundKey_involutive,
    decRounds_shiftRows_subBytes_encRounds _ hns, invShiftRows_invSubBytes_shiftRows_subBytes,
    addRoundKey_decSchedule_outer (.inl rfl), addRoundKey_involutive]

/-- Encryption is a bijection, so what undoes it is undone by it. -/
theorem decryptSteps_rightInverse_encryptSteps (key : List Byte) :
    Function.RightInverse (decryptSteps (decSchedule key) (roundCount key.length))
      (encryptSteps (encSchedule key) (roundCount key.length)) :=
  (decryptSteps_leftInverse_encryptSteps key).rightInverse_of_surjective (encryptSteps_bijective ..).surjective

/-! ### What a cooked key holds (41_key_schedule.md R157, 42_encrypt.md R188) -/

theorem cookedBytes_legalNr {w : List Word} {klen : Nat} (hlen : legalKeyLen klen)
    (hw : w.length = scheduleWords (roundCount klen)) (h60 : w.length ≤ 60) :
    legalNr ((cookedBytes w (roundCount klen)).getD 240 0) := by
  obtain ⟨-, -, -, hnr⟩ := cookedBytes_layout hw h60
  rw [hnr]
  obtain rfl | rfl | rfl := hlen <;> decide

theorem cookedNr_cookedBytes {w : List Word} {nr : Nat} (hw : w.length = scheduleWords nr) (h60 : w.length ≤ 60) :
    cookedNr (cookedBytes w nr) = nr := by
  obtain ⟨-, -, -, hnr⟩ := cookedBytes_layout hw h60
  rw [scheduleWords] at hw
  rw [cookedNr, hnr, BitVec.toNat_ofNat, Nat.mod_eq_of_lt (by omega)]

theorem cookedSchedule_cookedBytes {w : List Word} {nr : Nat} (hw : w.length = scheduleWords nr)
    (h60 : w.length ≤ 60) : cookedSchedule (cookedBytes w nr) = w := by
  rw [cookedSchedule, cookedNr_cookedBytes hw h60, ← hw]
  refine List.ext_getElem (by simp) fun i _ hi => ?_
  rw [List.getElem_map, List.getElem_range, cookedBytes, List.append_assoc, be32_flatMap_wordBytes _ _ _ hi,
    List.getD_eq_getElem _ _ hi]

theorem decSchedule_length_eq (key : List Byte) : (decSchedule key).length = scheduleWords (roundCount key.length) :=
  (decSchedule_length key).trans (encSchedule_length key)

section

variable {key : List Byte} (hkey : legalKeyLen key.length)

include hkey

theorem decSchedule_length_le : (decSchedule key).length ≤ 60 :=
  (decSchedule_length key).trans_le (encSchedule_length_le hkey)

theorem cookedDec_length : (cookedDec key).length = 241 :=
  (cookedBytes_layout (decSchedule_length_eq key) (decSchedule_length_le hkey)).1

theorem cookedEnc_legalNr : legalNr ((cookedEnc key).getD 240 0) :=
  cookedBytes_legalNr hkey (encSchedule_length key) (encSchedule_length_le hkey)

theorem cookedDec_legalNr : legalNr ((cookedDec key).getD 240 0) :=
  cookedBytes_legalNr hkey (decSchedule_length_eq key) (decSchedule_length_le hkey)

/-- Encryption under the cooked key is encryption with the key's schedule. -/
theorem encryptBytes_cookedEnc (block : List Byte) :
    encryptBytes (cookedEnc key) block =
      (encryptSteps (encSchedule key) (roundCount key.length) (Quad.ofBytes block)).bytes := by
  have hw := encSchedule_length key
  have h60 := encSchedule_length_le hkey
  rw [encryptBytes, cookedEnc, cookedSchedule_cookedBytes hw h60, cookedNr_cookedBytes hw h60]

theorem decryptBytes_cookedDec (block : List Byte) :
    decryptBytes (cookedDec key) block =
      (decryptSteps (decSchedule key) (roundCount key.length) (Quad.ofBytes block)).bytes := by
  have hw := decSchedule_length_eq key
  have h60 := decSchedule_length_le hkey
  rw [decryptBytes, cookedDec, cookedSchedule_cookedBytes hw h60, cookedNr_cookedBytes hw h60]

end

/-- Settles O55: on bytes, what `decryptSteps_leftInverse_encryptSteps` and its converse say of columns. -/
theorem decryptUndoesEncrypt : Obligations.DecryptUndoesEncrypt := by
  intro key block hkey hblock
  simp only [encryptBytes_cookedEnc hkey, decryptBytes_cookedDec hkey, quad_ofBytes_bytes]
  rw [decryptSteps_leftInverse_encryptSteps, decryptSteps_rightInverse_encryptSteps, quad_bytes_ofBytes block hblock]
  exact ⟨rfl, rfl⟩

/-! ### The round trip of the commands (R219; 70_reset_and_hazards.md R274, R275) -/

/-- The slice has a buffer and lies in it (20_memory.md R51; 30_encoding.md R91). -/
def ValidSlice (m : Memory) (b off n : Nat) : Prop := b < m.length ∧ inRange m b off n

theorem ValidSlice.after_write {m : Memory} {b off n : Nat} (h : ValidSlice m b off n) (b' a : Nat) (vs : List Byte) :
    ValidSlice (memWrite m b' a vs) b off n := by
  simpa [ValidSlice] using h

theorem ValidSlice.read_back {m : Memory} {b off n : Nat} (h : ValidSlice m b off n) {vs : List Byte}
    (hn : vs.length = n) : memRead (memWrite m b off vs) b off n = vs := by
  subst hn
  exact memRead_memWrite_same m h.1 h.2

/-- Under either policy a cook command with a legal raw key writes its cooked key (41_key_schedule.md R158, R160). -/
theorem cook_completes_of_legal_key {expand : Scratch → Scratch} {cooked : List Byte → List Byte}
    (hx : CooksTo expand cooked) {s : State} {kb koff klen cb coff : Nat} {o : Host.Outcome State Fault Refusal}
    (ho : o = cookValidating expand kb koff klen cb coff s ∨ o = cookCompat expand kb koff klen cb coff s)
    (hlen : legalKeyLen klen) (hkey : ValidSlice s.mem kb koff klen) (hdst : ValidSlice s.mem cb coff 241) :
    CompletesWriting s cb coff (cooked (memRead s.mem kb koff klen)) o := by
  obtain ⟨hkb, hkey⟩ := hkey
  obtain ⟨hcb, hdst⟩ := hdst
  obtain rfl | rfl := ho
  · exact cookValidating_completes hx hkb hcb hlen hkey hdst
  · have h := cookCompat_completes (koff := koff) (klen := klen) hx hkb hcb hdst
    rwa [if_pos ⟨hlen, hkey⟩] at h

/-- Cooking a legal key in both orientations writes both cooked keys. The first must not lie over the raw key, which the
second command reads again. -/
theorem exec_cook_both {cookE cookD : Nat → Nat → Nat → Nat → Nat → Instr} {s : State}
    {kb koff klen eb eoff db doff : Nat} (hE : cookE = Instr.cke ∨ cookE = Instr.ckeZ)
    (hD : cookD = Instr.ckd ∨ cookD = Instr.ckdZ) (hlen : legalKeyLen klen) (hkey : ValidSlice s.mem kb koff klen)
    (hedst : ValidSlice s.mem eb eoff 241) (hddst : ValidSlice s.mem db doff 241)
    (hdisj : DisjointSlices kb koff klen eb eoff 241) :
    ∃ t u, exec (cookE kb koff klen eb eoff) s = .next t ∧ exec (cookD kb koff klen db doff) t = .next u ∧
      u.mem = memWrite (memWrite s.mem eb eoff (cookedEnc (memRead s.mem kb koff klen))) db doff
        (cookedDec (memRead s.mem kb koff klen)) := by
  have hl : (cookedEnc (memRead s.mem kb koff klen)).length = 241 := cookedEnc_length (by rwa [memRead_length])
  obtain ⟨t, ht, -, -, htmem, -⟩ := cook_completes_of_legal_key (o := exec (cookE kb koff klen eb eoff) s)
    cooksTo_expandEnc (hE.imp (fun h => by rw [h]; rfl) fun h => by rw [h]; rfl) hlen hkey hedst
  have hread : memRead t.mem kb koff klen = memRead s.mem kb koff klen := by
    rw [htmem, memRead_memWrite_disjoint _ (by rwa [hl])]
  obtain ⟨u, hu, -, -, humem, -⟩ := cook_completes_of_legal_key (o := exec (cookD kb koff klen db doff) t)
    cooksTo_expandDec (hD.imp (fun h => by rw [h]; rfl) fun h => by rw [h]; rfl) hlen
    (htmem ▸ hkey.after_write ..) (htmem ▸ hddst.after_write ..)
  exact ⟨t, u, ht, hu, by rw [humem, hread, htmem]⟩

/-- Two block commands, the second on what the first wrote: where its transform undoes the first one's under the two
cooked keys, the source block comes back. The block between must not lie over the second cooked key. -/
theorem blockCommand_roundTrip {tr tr' : Scratch → Scratch} {f f' : List Byte → List Byte → Quad}
    (ht : TransformsTo tr f) (ht' : TransformsTo tr' f') {s : State} {kb koff kb' koff' sb soff cb coff ob ooff : Nat}
    {ck ck' block : List Byte} (hk : ValidSlice s.mem kb koff 241) (hk' : ValidSlice s.mem kb' koff' 241)
    (hs : ValidSlice s.mem sb soff 16) (hc : ValidSlice s.mem cb coff 16) (ho : ValidSlice s.mem ob ooff 16)
    (hck : memRead s.mem kb koff 241 = ck) (hck' : memRead s.mem kb' koff' 241 = ck')
    (hblock : memRead s.mem sb soff 16 = block) (hnr : legalNr (ck.getD 240 0)) (hnr' : legalNr (ck'.getD 240 0))
    (hdisj : DisjointSlices kb' koff' 241 cb coff 16) (hundo : (f' ck' (f ck block).bytes).bytes = block) :
    ∃ v w, blockCommand tr kb koff sb soff cb coff s = .next v ∧
      blockCommand tr' kb' koff' cb coff ob ooff v = .next w ∧ w.result = 0 ∧ memRead w.mem ob ooff 16 = block := by
  subst hck hck' hblock
  obtain ⟨v, hv, -, -, hvmem, -⟩ := blockCommand_completes ht hk.1 hs.1 hc.1 hk.2 hs.2 hc.2 hnr
  have hkey : memRead v.mem kb' koff' 241 = memRead s.mem kb' koff' 241 := by
    rw [hvmem]
    exact memRead_memWrite_disjoint _ hdisj
  have hmid : memRead v.mem cb coff 16 = (f (memRead s.mem kb koff 241) (memRead s.mem sb soff 16)).bytes := by
    rw [hvmem]
    exact hc.read_back (quad_bytes_length _)
  have hvalid : ∀ {b off n}, ValidSlice s.mem b off n → ValidSlice v.mem b off n := fun h =>
    hvmem ▸ h.after_write ..
  obtain ⟨w, hw, hres, -, hwmem, -⟩ := blockCommand_completes ht' (hvalid hk').1 (hvalid hc).1 (hvalid ho).1
    (hvalid hk').2 (hvalid hc).2 (hvalid ho).2 (hkey ▸ hnr')
  refine ⟨v, w, hv, hw, hres, ?_⟩
  rw [hwmem, (hvalid ho).read_back (quad_bytes_length _), hkey, hmid, hundo]

/-- Settles O57: after the two cook commands both cooked keys and the source block stand in the buffers, and each of the
two round trips is two block commands whose transforms undo each other by R219. -/
theorem commandRoundTrip : Obligations.CommandRoundTrip := by
  intro cookE cookD s kb koff klen eb eoff db doff sb soff cb coff ob ooff hE hD hh hlen hkey hedst hddst hsrc hcdst
    hodst hkeyE hED hsE hsD hEc hDc
  simp only [List.forall_mem_cons] at hh
  obtain ⟨hkb, heb, hdb, hsb, hcb, hob, -⟩ := hh
  have hvE : ValidSlice s.mem eb eoff 241 := ⟨heb, hedst⟩
  have hvD : ValidSlice s.mem db doff 241 := ⟨hdb, hddst⟩
  have hkl : legalKeyLen (memRead s.mem kb koff klen).length := by rwa [memRead_length]
  obtain ⟨t, u, ht, hu, hmem⟩ := exec_cook_both hE hD hlen ⟨hkb, hkey⟩ hvE hvD hkeyE
  generalize memRead s.mem kb koff klen = key at hkl hmem
  have hlenE := cookedEnc_length hkl
  have hlenD := cookedDec_length hkl
  have hvalid : ∀ {b off n}, ValidSlice s.mem b off n → ValidSlice u.mem b off n := fun h =>
    hmem ▸ (h.after_write ..).after_write ..
  have huE : memRead u.mem eb eoff 241 = cookedEnc key := by
    rw [hmem, memRead_memWrite_disjoint _ (hlenD ▸ hED), hvE.read_back hlenE]
  have huD : memRead u.mem db doff 241 = cookedDec key := by
    rw [hmem, (hvD.after_write ..).read_back hlenD]
  have hblock : memRead u.mem sb soff 16 = memRead s.mem sb soff 16 := by
    rw [hmem, memRead_memWrite_disjoint _ (hlenD ▸ hsD), memRead_memWrite_disjoint _ (hlenE ▸ hsE)]
  obtain ⟨hdecenc, hencdec⟩ := decryptUndoesEncrypt key _ hkl (memRead_length s.mem sb soff 16)
  have hus := hvalid (⟨hsb, hsrc⟩ : ValidSlice s.mem sb soff 16)
  have huc := hvalid (⟨hcb, hcdst⟩ : ValidSlice s.mem cb coff 16)
  have huo := hvalid (⟨hob, hodst⟩ : ValidSlice s.mem ob ooff 16)
  exact ⟨t, u, ht, hu,
    blockCommand_roundTrip transformsTo_encryptRegs transformsTo_decryptRegs (hvalid hvE) (hvalid hvD) hus huc huo
      huE huD hblock (cookedEnc_legalNr hkl) (cookedDec_legalNr hkl) hDc hdecenc,
    blockCommand_roundTrip transformsTo_decryptRegs transformsTo_encryptRegs (hvalid hvD) (hvalid hvE) hus huc huo
      huD huE hblock (cookedDec_legalNr hkl) (cookedEnc_legalNr hkl) hEc hencdec⟩

end Sys2Proof.Machine

/-! ## The faults of a command (60_exceptions.md R240 to R246)

The checks of each command form are read as the codes they can give; the first of them that holds, after decode's check
of the handles, is the code that `RESULT` shows. -/

namespace Sys2Proof.Machine

/-- Settles O19: a command that changes the buffers has completed, and no command clears `TABLES_READY`. -/
theorem faultWritesNoBuffer : Obligations.FaultWritesNoBuffer :=
  fun _ _ _ h hres => ⟨by_contra fun hne => hres (exec_writes h hne).1, exec_keeps_tablesReady h⟩

/-! ### The codes a command's checks can give (R241 to R243, R246) -/

theorem cookFault_eq_some_iff {m : Memory} {kb koff klen cb coff : Nat} {f : FaultCode} :
    cookFault m kb koff klen cb coff = some f ↔
      f = .invalidKeySize ∧ ¬ legalKeyLen klen ∨
      f = .offsetOutOfRange ∧ legalKeyLen klen ∧ (m.cap kb < koff + klen ∨ m.cap cb < coff + 241) := by
  unfold cookFault inRange legalKeyLen Config.ckBytes
  repeat' split
  all_goals cases f <;> simp <;> omega

theorem cookZFault_eq_some_iff {m : Memory} {cb coff : Nat} {f : FaultCode} :
    cookZFault m cb coff = some f ↔ f = .offsetOutOfRange ∧ m.cap cb < coff + 241 := by
  simp [cookZFault, and_comm, eq_comm]

theorem blockFault_eq_some_iff {m : Memory} {cb coff sb soff db doff : Nat} {f : FaultCode} :
    blockFault m cb coff sb soff db doff = some f ↔
      f = .offsetOutOfRange ∧
        (m.cap cb < coff + 241 ∨ m.cap sb < soff ∨ soff + 16 ≤ m.cap sb ∧ m.cap db < doff) ∨
      f = .invalidBlockLength ∧ coff + 241 ≤ m.cap cb ∧
        (soff ≤ m.cap sb ∧ m.cap sb < soff + 16 ∨
          soff + 16 ≤ m.cap sb ∧ doff ≤ m.cap db ∧ m.cap db < doff + 16) := by
  unfold blockFault inRange Config.ckBytes Config.blockBytes
  repeat' split
  all_goals cases f <;> simp <;> omega

/-! ### The block commands' faults in their order (R242, R243, R246 item 4) -/

section

variable {tr : Scratch → Scratch} {s : State} {cb coff sb soff db doff : Nat}

theorem blockCommand_faults_in_order (hcb : cb < s.mem.length) (hsb : sb < s.mem.length) (hdb : db < s.mem.length) :
    (s.mem.cap cb < coff + 241 →
      blockCommand tr cb coff sb soff db doff s = .next (s.begin.faulted .offsetOutOfRange)) ∧
    (coff + 241 ≤ s.mem.cap cb → s.mem.cap sb < soff →
      blockCommand tr cb coff sb soff db doff s = .next (s.begin.faulted .offsetOutOfRange)) ∧
    (coff + 241 ≤ s.mem.cap cb → soff ≤ s.mem.cap sb → s.mem.cap sb < soff + 16 →
      blockCommand tr cb coff sb soff db doff s = .next (s.begin.faulted .invalidBlockLength)) ∧
    (coff + 241 ≤ s.mem.cap cb → soff + 16 ≤ s.mem.cap sb → s.mem.cap db < doff →
      blockCommand tr cb coff sb soff db doff s = .next (s.begin.faulted .offsetOutOfRange)) ∧
    (coff + 241 ≤ s.mem.cap cb → soff + 16 ≤ s.mem.cap sb → doff ≤ s.mem.cap db → s.mem.cap db < doff + 16 →
      blockCommand tr cb coff sb soff db doff s = .next (s.begin.faulted .invalidBlockLength)) := by
  have faults {f : FaultCode} (hf : blockFault s.mem cb coff sb soff db doff = some f) :=
    blockCommand_of_fault (tr := tr) (badHandle_triple_eq_false hcb hsb hdb) hf
  exact ⟨fun hkey => faults (blockFault_eq_some_iff.2 (.inl ⟨rfl, .inl hkey⟩)),
    fun _ hsrc => faults (blockFault_eq_some_iff.2 (.inl ⟨rfl, .inr (.inl hsrc)⟩)),
    fun hkey hoff hsrc => faults (blockFault_eq_some_iff.2 (.inr ⟨rfl, hkey, .inl ⟨hoff, hsrc⟩⟩)),
    fun _ hsrc hdst => faults (blockFault_eq_some_iff.2 (.inl ⟨rfl, .inr (.inr ⟨hsrc, hdst⟩)⟩)),
    fun hkey hsrc hoff hdst => faults (blockFault_eq_some_iff.2 (.inr ⟨rfl, hkey, .inr ⟨hsrc, hoff, hdst⟩⟩))⟩

theorem blockCommand_mismatch_iff (hcb : cb < s.mem.length) (hsb : sb < s.mem.length) (hdb : db < s.mem.length)
    (hkey : inRange s.mem cb coff 241) (hsrc : inRange s.mem sb soff 16) (hdst : inRange s.mem db doff 16) :
    blockCommand tr cb coff sb soff db doff s = .next (s.begin.faulted .scheduleRoundCountMismatch) ↔
      ¬ legalNr ((memRead s.mem cb coff 241).getD 240 0) := by
  have hh := badHandle_triple_eq_false hcb hsb hdb
  have hf := (blockFault_eq_none_iff ..).2 ⟨hkey, hsrc, hdst⟩
  refine ⟨fun h hn => ?_, blockCommand_of_mismatch hh hf⟩
  have hnext := (blockCommand_of_legal hh hf hn).symm.trans h
  injection hnext with hstate
  exact code_ne_done .scheduleRoundCountMismatch (congrArg State.result hstate).symm

end

/-- Settles O52: both commands run the same bounds checks. -/
theorem blockFaultOrder : Obligations.BlockFaultOrder := by
  intro mk s cb coff sb soff db doff hmk hcb hsb hdb
  obtain rfl | rfl := hmk
  · exact blockCommand_faults_in_order (tr := encryptRegs) hcb hsb hdb
  · exact blockCommand_faults_in_order (tr := decryptRegs) hcb hsb hdb

/-- Settles O53: both commands check the round-count byte last. -/
theorem roundCountMismatchFaults : Obligations.RoundCountMismatchFaults := by
  intro mk s cb coff sb soff db doff hmk
  obtain rfl | rfl := hmk
  · exact blockCommand_mismatch_iff (tr := encryptRegs)
  · exact blockCommand_mismatch_iff (tr := decryptRegs)

/-! ### The first cause that holds is the code in `RESULT` (R240, R246) -/

/-- The fault of the checks of `ENC` and `DEC`, the round-count byte after the bounds (R246 item 4). -/
def blockCheckFault (m : Memory) (cb coff sb soff db doff : Nat) : Option FaultCode :=
  (blockFault m cb coff sb soff db doff).or
    (if legalNr ((memRead m cb coff 241).getD 240 0) then none else some .scheduleRoundCountMismatch)

/-- The fault of a command's own checks, which come after decode's check of the handles (R246 items 3 and 4). -/
def checkFault (m : Memory) : Instr → Option FaultCode
  | .tinit => none
  | .cke kb koff klen cb coff => cookFault m kb koff klen cb coff
  | .ckd kb koff klen cb coff => cookFault m kb koff klen cb coff
  | .ckeZ _ _ _ cb coff => cookZFault m cb coff
  | .ckdZ _ _ _ cb coff => cookZFault m cb coff
  | .enc cb coff sb soff db doff => blockCheckFault m cb coff sb soff db doff
  | .dec cb coff sb soff db doff => blockCheckFault m cb coff sb soff db doff

/-- What `RESULT` shows after a command with this fault, or with none (R240). -/
def shownCode : Option FaultCode → BitVec 8
  | none => resultDone
  | some f => f.code

theorem code_injective : Function.Injective FaultCode.code := by
  intro f g
  cases f <;> cases g <;> decide

theorem shownCode_eq_code_iff {o : Option FaultCode} {f : FaultCode} : shownCode o = f.code ↔ o = some f := by
  cases o with
  | none => exact iff_of_false (code_ne_done f).symm nofun
  | some g => exact code_injective.eq_iff.trans (Option.some_inj).symm

theorem blockCheckFault_eq_some_iff {m : Memory} {cb coff sb soff db doff : Nat} {f : FaultCode} :
    blockCheckFault m cb coff sb soff db doff = some f ↔
      blockFault m cb coff sb soff db doff = some f ∨
      f = .scheduleRoundCountMismatch ∧ coff + 241 ≤ m.cap cb ∧ soff + 16 ≤ m.cap sb ∧ doff + 16 ≤ m.cap db ∧
        ¬ legalNr ((memRead m cb coff 241).getD 240 0) := by
  rw [blockCheckFault, Option.or_eq_some_iff, blockFault_eq_none_iff]
  simp only [Option.ite_none_left_eq_some, Option.some_inj, @eq_comm _ FaultCode.scheduleRoundCountMismatch]
  tauto

section

variable {i : Instr} {s t : State}

theorem cookValidating_result {expand : Scratch → Scratch} {kb koff klen cb coff : Nat}
    (hh : badHandle s.mem [kb, cb] = false) (h : cookValidating expand kb koff klen cb coff s = .next t) :
    t.result = shownCode (cookFault s.mem kb koff klen cb coff) := by
  cases hf : cookFault s.mem kb koff klen cb coff with
  | some f => cases (cookValidating_of_fault hh hf).symm.trans h; rfl
  | none => cases (cookValidating_of_none hh hf).symm.trans h; rfl

theorem cookCompat_result {expand : Scratch → Scratch} {kb koff klen cb coff : Nat}
    (hh : badHandle s.mem [kb, cb] = false) (h : cookCompat expand kb koff klen cb coff s = .next t) :
    t.result = shownCode (cookZFault s.mem cb coff) := by
  cases hf : cookZFault s.mem cb coff with
  | some f => cases (cookCompat_of_fault hh hf).symm.trans h; rfl
  | none =>
    cases hk : badKey s.mem kb koff klen with
    | true => cases (cookCompat_of_badKey hh hf hk).symm.trans h; rfl
    | false => cases (cookCompat_of_goodKey hh hf hk).symm.trans h; rfl

theorem blockCommand_result {tr : Scratch → Scratch} {cb coff sb soff db doff : Nat}
    (hh : badHandle s.mem [cb, sb, db] = false) (h : blockCommand tr cb coff sb soff db doff s = .next t) :
    t.result = shownCode (blockCheckFault s.mem cb coff sb soff db doff) := by
  rw [blockCheckFault]
  cases hf : blockFault s.mem cb coff sb soff db doff with
  | some f => cases (blockCommand_of_fault hh hf).symm.trans h; rfl
  | none =>
    by_cases hn : legalNr ((memRead s.mem cb coff 241).getD 240 0)
    · rw [if_pos hn]
      cases (blockCommand_of_legal hh hf hn).symm.trans h; rfl
    · rw [if_neg hn]
      cases (blockCommand_of_mismatch hh hf hn).symm.trans h; rfl

theorem exec_result_of_badHandle (h : exec i s = .next t) (hh : ∃ x ∈ handlesOf i, s.mem.length ≤ x) :
    t.result = FaultCode.illegalCommand.code := by
  cases (badHandleFaultsFirst i s hh).symm.trans h
  rfl

theorem exec_result_of_goodHandles (h : exec i s = .next t) (hh : badHandle s.mem (handlesOf i) = false) :
    t.result = shownCode (checkFault s.mem i) := by
  cases i with
  | tinit => cases h; rfl
  | cke => exact cookValidating_result hh h
  | ckd => exact cookValidating_result hh h
  | ckeZ => exact cookCompat_result hh h
  | ckdZ => exact cookCompat_result hh h
  | enc => exact blockCommand_result hh h
  | dec => exact blockCommand_result hh h

/-- A command of which a check fails is of one of the three forms with checks, and the check is its form's. -/
theorem checkFault_eq_some_iff {m : Memory} {f : FaultCode} :
    (∀ x ∈ handlesOf i, x < m.length) ∧ checkFault m i = some f ↔
      (∃ kb koff klen cb coff, (i = .cke kb koff klen cb coff ∨ i = .ckd kb koff klen cb coff) ∧
        kb < m.length ∧ cb < m.length ∧ cookFault m kb koff klen cb coff = some f) ∨
      (∃ kb koff klen cb coff, (i = .ckeZ kb koff klen cb coff ∨ i = .ckdZ kb koff klen cb coff) ∧
        kb < m.length ∧ cb < m.length ∧ cookZFault m cb coff = some f) ∨
      ∃ cb coff sb soff db doff, (i = .enc cb coff sb soff db doff ∨ i = .dec cb coff sb soff db doff) ∧
        cb < m.length ∧ sb < m.length ∧ db < m.length ∧ blockCheckFault m cb coff sb soff db doff = some f := by
  cases i <;> simp [handlesOf, checkFault, and_assoc]

/-- Code 5 is decode's alone: no check of a command's own gives it. -/
theorem checkFault_ne_illegalCommand (m : Memory) (i : Instr) : checkFault m i ≠ some .illegalCommand := by
  cases i <;>
    simp [checkFault, cookFault_eq_some_iff, cookZFault_eq_some_iff, blockCheckFault_eq_some_iff,
      blockFault_eq_some_iff]

theorem exec_result_illegalCommand_iff (h : exec i s = .next t) :
    t.result = FaultCode.illegalCommand.code ↔ ∃ x ∈ handlesOf i, s.mem.length ≤ x := by
  refine ⟨fun hres => ?_, exec_result_of_badHandle h⟩
  by_contra hh
  rw [← badHandle_eq_true_iff, Bool.not_eq_true] at hh
  exact checkFault_ne_illegalCommand _ _ (shownCode_eq_code_iff.1 ((exec_result_of_goodHandles h hh).symm.trans hres))

theorem exec_result_eq_code_iff (h : exec i s = .next t) {f : FaultCode} (hf : f ≠ .illegalCommand) :
    t.result = f.code ↔ (∀ x ∈ handlesOf i, x < s.mem.length) ∧ checkFault s.mem i = some f := by
  by_cases hh : ∀ x ∈ handlesOf i, x < s.mem.length
  · rw [exec_result_of_goodHandles h ((badHandle_eq_false_iff ..).2 hh), shownCode_eq_code_iff]
    exact (and_iff_right hh).symm
  · rw [exec_result_of_badHandle h (by simpa using hh), code_injective.eq_iff]
    exact iff_of_false hf.symm fun hc => hh hc.1

end

/-- Settles O23: code 5 is decode's, and each other code is read off the checks of the form whose check fails. -/
theorem eachFaultCodeHasItsCause : Obligations.EachFaultCodeHasItsCause := by
  intro i s t h
  refine ⟨exec_result_illegalCommand_iff h,
    (exec_result_eq_code_iff h (f := .invalidKeySize) nofun).trans ?_,
    (exec_result_eq_code_iff h (f := .invalidBlockLength) nofun).trans ?_,
    (exec_result_eq_code_iff h (f := .offsetOutOfRange) nofun).trans ?_,
    (exec_result_eq_code_iff h (f := .scheduleRoundCountMismatch) nofun).trans ?_⟩
  all_goals
    rw [checkFault_eq_some_iff]
    simp [cookFault_eq_some_iff, cookZFault_eq_some_iff, blockCheckFault_eq_some_iff, blockFault_eq_some_iff]

end Sys2Proof.Machine

/-! ## Reset and hazards (70_reset_and_hazards.md R273, R278, R281, R282)

What the HOST may write between commands, that every command ends, and the two cooked keys a later command can meet: one
cooked from a legal key, which gives that key back, and the zero-filled one, which no block command takes. -/

namespace Sys2Proof.Machine

/-! ### The HOST writes a byte (R282) -/

theorem hostPoke_of_byte {b a : Nat} (v : Byte) {s : State} (hb : b < s.mem.length) (ha : a < s.mem.cap b) :
    hostPoke b a v s = .next { s with mem := memWrite s.mem b a [v] } := by
  obtain ⟨u, hu⟩ := Option.isSome_iff_exists.1 ((byte?_isSome_iff s.mem b a).2 ⟨hb, ha⟩)
  rw [hostPoke, hu]

theorem hostPoke_of_no_byte {b a : Nat} (v : Byte) {s : State} (h : ¬ (b < s.mem.length ∧ a < s.mem.cap b)) :
    hostPoke b a v s = .fault .noSuchByte := by
  have hnone : s.mem.byte? b a = none := Option.not_isSome_iff_eq_none.1 (mt (byte?_isSome_iff ..).1 h)
  rw [hostPoke, hnone]

/-- Settles O10: a byte that exists is written as a window of one byte, and the model stops on any other. -/
theorem hostWriteChangesOneByte : Obligations.HostWriteChangesOneByte := by
  intro s b a v rest hp
  rw [step_of_poke hp]
  refine ⟨fun hb ha => ⟨_, hostPoke_of_byte v hb ha, ?_, fun b' a' hne => ?_, rfl⟩, fun h => hostPoke_of_no_byte v h⟩
  · exact memWrite_byte?_inside (vs := [v]) hb ha (j := 0) Nat.one_pos
  · refine memWrite_byte?_outside s.mem ?_
    rw [List.length_singleton]
    omega

/-! ### The end of a command (R281) -/

/-- Settles O17: `exec` always answers a next state, and `RESULT` shows one of the codes there. -/
theorem everyCommandEnds : Obligations.EveryCommandEnds := by
  intro i s
  obtain ⟨t, ht, -⟩ := exec_ending i s
  exact ⟨t, ht, exec_result_le_five ht⟩

/-! ### Well-formed cooked keys (R273) -/

/-- The words of a raw key hold all of its bytes. -/
theorem keyWords_flatMap_wordBytes {key : List Byte} (h : 4 ∣ key.length) :
    (keyWords key).flatMap wordBytes = key := by
  have hlen : ((keyWords key).flatMap wordBytes).length = key.length := by
    rw [flatMap_wordBytes_length, keyWords_length, Nat.mul_div_cancel' h]
  refine List.ext_getElem hlen fun j hj hj' => ?_
  rw [← List.getD_eq_getElem _ 0, ← List.getD_eq_getElem _ 0, flatMap_wordBytes_getD,
    keyWords_getD key (by omega), byteK_be32 _ _ (Nat.mod_lt _ four_pos), Nat.div_add_mod]

theorem be32_cookedBytes {w : List Word} (nr : Nat) {i : Nat} (h : i < w.length) :
    be32 (cookedBytes w nr) (4 * i) = w.getD i 0 := by
  rw [cookedBytes, List.append_assoc, be32_flatMap_wordBytes _ _ _ h]

/-- The raw key's length in words, from the round count of its cooked key (41_key_schedule.md R163). -/
theorem cookedNr_sub_six {w : List Word} {klen : Nat} (hw : w.length = scheduleWords (roundCount klen))
    (h60 : w.length ≤ 60) : cookedNr (cookedBytes w (roundCount klen)) - 6 = klen / 4 := by
  rw [cookedNr_cookedBytes hw h60, roundCount, Nat.add_sub_cancel]

/-- A word of the raw key is recovered from the decryption cooked key: the first four are kept, and `MixColumnWord` gives
the later ones back. -/
theorem recovered_word {key : List Byte} {i : Nat} (hi : i < key.length / 4) :
    (if i < 4 then be32 (cookedDec key) (4 * i) else mixColumnWord (be32 (cookedDec key) (4 * i))) =
      be32 key (4 * i) := by
  have henc : i < (encSchedule key).length := by rw [encSchedule_length, scheduleWords, roundCount]; omega
  rw [cookedDec, be32_cookedBytes _ (henc.trans_eq (decSchedule_length key).symm), decSchedule_getD key henc,
    ← encSchedule_getD_key key hi]
  by_cases h4 : i < 4
  · rw [if_pos h4, if_neg (by omega)]
  · rw [if_neg h4, if_pos ⟨by omega, by rw [roundCount]; omega⟩, mixColumnWord_invMixColumnWord]

section

variable {key : List Byte} (hkey : legalKeyLen key.length)

include hkey

theorem rawKeyEnc_cookedEnc : rawKeyEnc (cookedEnc key) = key := by
  have hnk : cookedNr (cookedEnc key) - 6 = key.length / 4 :=
    cookedNr_sub_six (encSchedule_length key) (encSchedule_length_le hkey)
  rw [rawKeyEnc, hnk, show 4 * (key.length / 4) = key.length by omega, cookedEnc_take_key hkey]

theorem rawKeyDec_cookedDec : rawKeyDec (cookedDec key) = key := by
  have hnk : cookedNr (cookedDec key) - 6 = key.length / 4 :=
    cookedNr_sub_six (decSchedule_length_eq key) (decSchedule_length_le hkey)
  rw [rawKeyDec, hnk, List.map_congr_left fun i hi => recovered_word (List.mem_range.1 hi)]
  exact keyWords_flatMap_wordBytes (by omega)

end

/-- Settles O37: re-cooking the recovered key is cooking the key itself. -/
theorem cookedKeysAreWellFormed : Obligations.CookedKeysAreWellFormed := fun key hkey => by
  have henc := rawKeyEnc_cookedEnc hkey
  have hdec := rawKeyDec_cookedDec hkey
  exact ⟨⟨cookedEnc_legalNr hkey, by rw [henc]⟩, henc, ⟨cookedDec_legalNr hkey, by rw [hdec]⟩, hdec⟩

/-! ### The zero-filled cooked key (R278) -/

/-- Under the compatibility policy an illegal raw key leaves the zero-filled cooked key (41_key_schedule.md R160). -/
theorem cookCompat_zero_fills {expand : Scratch → Scratch} {cooked : List Byte → List Byte}
    (hx : CooksTo expand cooked) {s : State} {kb koff klen cb coff : Nat} (hkb : kb < s.mem.length)
    (hcb : cb < s.mem.length) (hdst : inRange s.mem cb coff 241)
    (hbad : ¬ (legalKeyLen klen ∧ inRange s.mem kb koff klen)) :
    CompletesWriting s cb coff cookedZero (cookCompat expand kb koff klen cb coff s) := by
  have h := cookCompat_completes (koff := koff) (klen := klen) hx hkb hcb hdst
  rwa [if_neg hbad] at h

/-- The round-count byte of the zero-filled cooked key is 0. -/
theorem cookedZero_not_legalNr : ¬ legalNr (cookedZero.getD 240 0) := by decide

/-- Settles O44: the block command reads the zeros back, and their round count is not legal (60_exceptions.md R243). -/
theorem zeroFilledKeyNeverEncrypts : Obligations.ZeroFilledKeyNeverEncrypts := by
  intro cookZ mk s t kb koff klen cb coff sb soff db doff hcook hmk hbad hkb hcb hkey ht hsb hdb hsrc hdst
  have hzero : CompletesWriting s cb coff cookedZero (exec (cookZ kb koff klen cb coff) s) := by
    obtain rfl | rfl := hcook
    · exact cookCompat_zero_fills cooksTo_expandEnc hkb hcb hkey hbad
    · exact cookCompat_zero_fills cooksTo_expandDec hkb hcb hkey hbad
  obtain ⟨u, hu, -, -, hmem, -⟩ := hzero
  cases hu.symm.trans ht
  have hvalid {b off n} (hb : b < s.mem.length) (hr : inRange s.mem b off n) : ValidSlice t.mem b off n :=
    hmem ▸ ValidSlice.after_write ⟨hb, hr⟩ ..
  have hread : memRead t.mem cb coff 241 = cookedZero := by
    rw [hmem]
    exact ValidSlice.read_back ⟨hcb, hkey⟩ rfl
  obtain ⟨hcb', hkey'⟩ := hvalid hcb hkey
  obtain ⟨hsb', hsrc'⟩ := hvalid hsb hsrc
  obtain ⟨hdb', hdst'⟩ := hvalid hdb hdst
  exact ⟨_, (roundCountMismatchFaults mk t cb coff sb soff db doff hmk hcb' hsb' hdb' hkey' hsrc' hdst').2
    (hread ▸ cookedZero_not_legalNr), rfl, rfl⟩

end Sys2Proof.Machine

/-! ## The worked encodings (30_encoding.md section 6) -/

namespace Sys2Proof

/-- A packet decodes to the well-formed command it encodes, and nothing is left over. -/
theorem decode_of_encode_eq {i : Instr} {ws : List Word} (hwf : i.wellFormed = true) (he : encode i = ws) :
    decode ws = .ok (i, []) := by
  rw [← he, ← List.append_nil (encode i)]
  exact decode_encode_append hwf []

/-- Settles O3: each printed packet is its command's encoding, and none of the four illegal words is a command word. -/
theorem workedPacketsDecode : Obligations.WorkedPacketsDecode := by
  refine ⟨?tinit, ?cke, ?ckd, ?ckeZ, ?enc, ?dec, ?zero, ?unused, ?reserved, ?topBit⟩
  case tinit | cke | ckd | ckeZ | enc | dec => exact decode_of_encode_eq (by decide) (by decide)
  case zero | unused | reserved | topBit => exact decode_of_illegal (by decide) []

end Sys2Proof
